-- ==== Sys2Proof/Word.lean ====
section
/-! DEFINITION. The two word types of NFRV: a character (rule R6, `CHAR_W`) and a command word
(rule R6, `CMD_W`). All values are unsigned (rule R8). -/

namespace Sys2Proof

/-- One character: 8 bits (R6 `CHAR_W`), its code being its value (R46). -/
abbrev Byte := BitVec 8

/-- One command word `cmd[9:0]` (R6 `CMD_W`, R45). -/
abbrev CmdWord := BitVec 10

end Sys2Proof
end

