-- ==== Sys2Proof/Config.lean ====
section
/-! DEFINITION. The constants and the one parameter of rule R6, and the free values of the model. -/

namespace Sys2Proof

/-- The one variant point of NFRV (R2, R6): the number of characters of a line that LB stores.
It is fixed when the block is built (R134); a value outside 82 to 254 cannot be written down. -/
structure Config where
  /-- `LINE_CAP` (R6). -/
  lineCap : Nat
  /-- R6: 82 ≤ LINE_CAP. -/
  lineCap_ge : 82 ≤ lineCap
  /-- R6: LINE_CAP ≤ 254. -/
  lineCap_le : lineCap ≤ 254
deriving DecidableEq, Repr

namespace Config

/-- `LINE_CAP` at its default, 82 (R6). -/
def default82 : Config := ⟨82, by decide, by decide⟩

/-- FREE VALUE. The byte that LB holds at an index after the n-th hardware-reset step: R130 leaves
LB unspecified there. First argument: `State.freeCount`; second: the index. Log entry 6. -/
opaque freeByte : Nat → Nat → Byte

/-! Character codes (R6; the numbers are ASCII, log entry 14). -/

/-- CR. -/
abbrev cr : Byte := 0x0D#8
/-- LF. -/
abbrev lf : Byte := 0x0A#8
/-- `$`. -/
abbrev dollar : Byte := 0x24#8
/-- `*`, the separator `SEP`. -/
abbrev star : Byte := 0x2A#8
/-- `,`, the field delimiter `FS`. -/
abbrev comma : Byte := 0x2C#8
/-- `G`. -/
abbrev upperG : Byte := 0x47#8
/-- `P`. -/
abbrev upperP : Byte := 0x50#8

/-- `TALKER` (R6): the three characters `$GP`. -/
abbrev talker : List Byte := [dollar, upperG, upperP]
/-- `TERM` (R6): CR then LF. -/
abbrev terminator : List Byte := [cr, lf]
/-- `MAX_LEN` (R6). -/
abbrev maxLen : Nat := 82
/-- `TYPE_OFF` (R6). -/
abbrev typeOff : Nat := 3
/-- `TYPE_LEN` (R6). -/
abbrev typeLen : Nat := 3
/-- `CK_DIGITS` (R6). -/
abbrev ckDigits : Nat := 2
/-- `LEN_SAT` (R6): the value LEN saturates at. -/
abbrev lenSat : Nat := 255

end Config
end Sys2Proof
end

