-- ==== Sys2Proof/Machine/State.lean ====
section
/-! DEFINITION. The state of one NFRV instance (rule R10), the signals of its ports as plain data
(rules R22, R23, R25), the reasons a step can stop, and the state after reset (rule R26). -/

namespace Sys2Proof.Machine

/-- The outcome code of a line (R53, R110). Codes 5 to 7 are never produced, so they have no
constructor. -/
inductive Verdict where
  | ok
  | badTalker
  | tooLong
  | missingChecksum
  | checksumMismatch
deriving DecidableEq, Repr

/-- A result record (R23), as emitted: `text` is the first min(LEN, LINE_CAP) characters.
The zero entries of `res_text` above them are added by `resultPort`. -/
structure Result where
  verdict : Verdict
  len : BitVec 8
  trunc : Bool
  text : List Byte
  /-- `res_type`: the character at index 3 in bits 23:16. -/
  typeCode : BitVec 24
  star : BitVec 8
  nfields : BitVec 7
deriving DecidableEq, Repr

/-- The input pins at one clock edge: `rst` (R25), `cmd_valid` and `cmd[9:0]` (R22). -/
structure Pins where
  rst : Bool
  cmdValid : Bool
  cmd : CmdWord
deriving DecidableEq, Repr

/-- The line buffer LB as a list of (index, byte) cells, indices strictly rising, no cell equal to
what an unlisted index reads as (`Memory.wf`). -/
abbrev Memory := List Host.Cell

/-- The state of one instance. The first nine fields after `cfg` are the whole architectural state
of R10; `cfg`, `input`, `out` and `freeCount` are the model's own (INVENTORY.md, State). -/
structure State where
  /-- The parameter LINE_CAP (R6); no step changes it (log entry 4). -/
  cfg : Config
  /-- LB, the line buffer (R13). -/
  lb : Memory
  /-- LEN (R14). -/
  len : BitVec 8
  /-- CR_PEND (R15). -/
  crPend : Bool
  /-- NEEDS_CONT (R16). -/
  needsCont : Bool
  /-- TALK_BAD (R17). -/
  talkBad : Bool
  /-- STAR_SEEN (R18). -/
  starSeen : Bool
  /-- STAR_IDX (R18). -/
  starIdx : BitVec 8
  /-- XACC (R19). -/
  xacc : BitVec 8
  /-- ILLCMD (R21). -/
  illcmd : Bool
  /-- The input pins at the coming clock edges, the next one first (log entry 1). -/
  input : List Pins
  /-- The result port in the latest step: `none` when `res_valid` = 0 (R23, log entry 3). -/
  out : Option Result
  /-- The number of hardware-reset steps so far: it selects the free bytes of LB (log entry 6). -/
  freeCount : Nat
deriving DecidableEq, Repr

/-- Why the machine stops. -/
inductive Fault where
  /-- Raised by `memRead` and `memWrite` for an index outside 0 to LINE_CAP-1, which is no location
  of the address space (R30). Safe: no command in any state makes such an access (R32), and the
  spec gives no effect to one. Log entry 7. -/
  | noSuchLocation (index : Nat)
deriving DecidableEq, Repr

/-- Why a command has no meaning in the model. -/
inductive Refusal where
  /-- Raised by `exec` for a command that is not modelled, under its mnemonic. Safe. No arm of
  `exec` raises it: every command is modelled. -/
  | notModelled (mnemonic : String)
deriving DecidableEq, Repr

/-- The state after hardware reset (R26, R130): every register and flag 0. Model's own values: the
default LINE_CAP, LB with nothing listed (log entry 5), no input presented yet, no record on the
result port, no reset step counted. -/
def State.reset : State where
  cfg := Config.default82
  lb := []
  len := 0#8
  crPend := false
  needsCont := false
  talkBad := false
  starSeen := false
  starIdx := 0#8
  xacc := 0#8
  illcmd := false
  input := []
  out := none
  freeCount := 0

end Sys2Proof.Machine
end

