-- ==== Sys2Proof/Machine/Operands.lean ====
section
/-! DEFINITION. The values the commands compute with: the arithmetic of rules R8 and R104, the
checksum digits of rules R97 and R98, and the indices of rule R41. -/

namespace Sys2Proof.Machine

/-- `sat_inc(v) = min(v + 1, 255)` (R8). -/
def satInc (v : BitVec 8) : BitVec 8 := BitVec.ofNat 8 (min (v.toNat + 1) Config.lenSat)

/-- `xor8` (R8): bitwise exclusive-or of two 8-bit values. -/
def xor8 (a b : Byte) : Byte := a ^^^ b

/-- The characters `0123456789abcdef` (R8). -/
def hexDigits : List Byte :=
  [0x30#8, 0x31#8, 0x32#8, 0x33#8, 0x34#8, 0x35#8, 0x36#8, 0x37#8, 0x38#8, 0x39#8,
   0x61#8, 0x62#8, 0x63#8, 0x64#8, 0x65#8, 0x66#8]

/-- `hexdig(n)` (R8), for a nibble. -/
def hexdig (n : BitVec 4) : Byte := hexDigits.getD n.toNat 0#8

/-- `x[7:4]` (R104). -/
def hiNibble (x : Byte) : BitVec 4 := x.extractLsb' 4 4

/-- `x[3:0]` (R104). -/
def loNibble (x : Byte) : BitVec 4 := x.extractLsb' 0 4

/-- The two-digit rendering of a checksum, high nibble first, zero-padded (R97). -/
def renderChecksum (x : Byte) : List Byte := [hexdig (hiNibble x), hexdig (loNibble x)]

/-- `fold(c)` (R8, R98): upper-case ASCII letters to lower case, every other code itself. -/
def fold (c : Byte) : Byte := if 0x41#8 ≤ c ∧ c ≤ 0x5A#8 then c + 0x20#8 else c

/-- The index at which the next character is stored: LEN, while it is below LINE_CAP (R13, R41). -/
def storeIndex (s : State) : Option Nat :=
  if s.len.toNat < s.cfg.lineCap then some s.len.toNat else none

/-- The length of the checksum field, `LEN - STAR_IDX - 1` on 8 bits (R100; log entry 11). -/
def fieldLength (s : State) : BitVec 8 := s.len - s.starIdx - 1#8

/-- The number of characters of the line that LB holds: min(LEN, LINE_CAP) (R100). -/
def storedCount (s : State) : Nat := min s.len.toNat s.cfg.lineCap

/-- `res_type`: three characters packed, the first one most significant (R31). -/
def packType (a b c : Byte) : BitVec 24 := a ++ b ++ c

end Sys2Proof.Machine
end

