-- ==== Sys2Proof/Machine/Flags.lean ====
section
/-! DEFINITION. What a committed character does to the flags and running registers (rules R16 to
R19, R71). Every LEN here is the value before the commit increments it. -/

namespace Sys2Proof.Machine

/-- NEEDS_CONT after a FEED, from the values the step has just written (R16, R76). -/
def needsContOf (len : BitVec 8) (crPend : Bool) : Bool := len != 0#8 || crPend

/-- R17: the character differs from the talker's at index 0, 1 or 2. -/
def talkerMiss (len : BitVec 8) (c : Byte) : Bool :=
  (len == 0#8 && c != Config.dollar) || (len == 1#8 && c != Config.upperG) ||
  (len == 2#8 && c != Config.upperP)

/-- TALK_BAD after the commit of `c` (R17): once set it stays set. -/
def talkBadAfter (s : State) (c : Byte) : Bool := s.talkBad || talkerMiss s.len c

/-- R18: `c` is the first `*` of the line. -/
def firstStarNow (s : State) (c : Byte) : Bool := !s.starSeen && c == Config.star

/-- STAR_SEEN after the commit of `c` (R18). -/
def starSeenAfter (s : State) (c : Byte) : Bool := s.starSeen || firstStarNow s c

/-- STAR_IDX after the commit of `c` (R18): LEN when `c` is the first `*`. -/
def starIdxAfter (s : State) (c : Byte) : BitVec 8 := if firstStarNow s c then s.len else s.starIdx

/-- XACC after the commit of `c` (R19): folded in before the first `*`, but never at index 0. -/
def xaccAfter (s : State) (c : Byte) : BitVec 8 :=
  if !s.starSeen && c != Config.star && s.len != 0#8 then xor8 s.xacc c else s.xacc

end Sys2Proof.Machine
end

