-- ==== Sys2Proof/Machine/Ops.lean ====
section
/-! DEFINITION. The named operations over the line buffer and the registers: reading and writing LB
(rules R30, R41), committing a character (rule R71), clearing the line (rules R61, R73), raising
IllegalCommand (rules R63, R111) and hardware reset (rule R130).

NFRV has no trap entry and no return from one: nothing saves an address, changes a mode or vectors
to a handler (R115, R116). Raising an error is `raiseIllegalCommand` here, and for the four
validation errors the record of `evaluate` with the clearing of the line (R115). -/

namespace Sys2Proof.Machine

/-! ## The line buffer -/

/-- What an index with no cell reads as. R26 leaves LB's bytes unspecified after reset; they are
unobservable (log entry 5). -/
def Memory.unlisted : Byte := 0#8

/-- The byte at an index. -/
def Memory.read (m : Memory) (i : Nat) : Byte :=
  match m with
  | [] => Memory.unlisted
  | (a, v) :: rest => if a = i then v else Memory.read rest i

/-- The cells with index `i` set to `v`, in canonical form: a cell that would equal the unlisted
byte is left out. -/
def Memory.write (m : Memory) (i : Nat) (v : Byte) : Memory :=
  match m with
  | [] => if v = Memory.unlisted then [] else [(i, v)]
  | (a, b) :: rest =>
    if a < i then (a, b) :: Memory.write rest i v
    else if a = i then (if v = Memory.unlisted then rest else (i, v) :: rest)
    else if v = Memory.unlisted then (a, b) :: rest
    else (i, v) :: (a, b) :: rest

/-- Every index of the cells is above `lo`, they rise strictly, and no cell holds the unlisted
byte. -/
def Memory.wfAbove (lo : Option Nat) (m : Memory) : Bool :=
  match m with
  | [] => true
  | (a, v) :: rest =>
    (match lo with | none => true | some l => decide (l < a)) && v != Memory.unlisted &&
      Memory.wfAbove (some a) rest

/-- The canonical form: indices strictly rising, no cell equal to what an unlisted index reads as. -/
def Memory.wf (m : Memory) : Bool := Memory.wfAbove none m

/-- Every cell is a location of LB: its index is below LINE_CAP (R30). -/
def Memory.within (cap : Nat) (m : Memory) : Bool := m.all fun cell => decide (cell.1 < cap)

/-- `MemRead(i, 1)` (R30). -/
def memRead (s : State) (i : Nat) : Except Fault Byte :=
  if i < s.cfg.lineCap then .ok (s.lb.read i) else .error (.noSuchLocation i)

/-- `MemWrite(i, 1, v)` (R30). -/
def memWrite (s : State) (i : Nat) (v : Byte) : Except Fault State :=
  if i < s.cfg.lineCap then .ok { s with lb := s.lb.write i v } else .error (.noSuchLocation i)

/-- `n` bytes from index `i` on, in index order (R31). -/
def memReadRange (s : State) (i : Nat) : Nat → Except Fault (List Byte)
  | 0 => .ok []
  | n + 1 => do
    let b ← memRead s i
    let bs ← memReadRange s (i + 1) n
    .ok (b :: bs)

/-! ## Committing a character (R71) -/

/-- The store of R71: `if LEN < LINE_CAP then MemWrite(LEN, 1, c)`, else no store (R42). -/
def storeChar (c : Byte) (s : State) : Except Fault State :=
  match storeIndex s with
  | some i => memWrite s i c
  | none => .ok s

/-- The running registers and LEN after the commit of `c` (R14, R17 to R19). -/
def commitRegs (c : Byte) (s : State) : State :=
  { s with
    talkBad := talkBadAfter s c
    starSeen := starSeenAfter s c
    starIdx := starIdxAfter s c
    xacc := xaccAfter s c
    len := satInc s.len }

/-- `append(c)` (R71). -/
def append (c : Byte) (s : State) : Except Fault State := do
  let s ← storeChar c s
  .ok (commitRegs c s)

/-- Commits the held CR if there is one: `if CR_PEND = 1 then append(0x0D)` (R70, R72, R74). -/
def appendHeldCr (s : State) : Except Fault State :=
  if s.crPend then append Config.cr s else .ok s

/-! ## Clearing, emitting, errors, reset -/

/-- The clearing of a completed line (R73): LB and ILLCMD stay. -/
def clearLine (s : State) : State :=
  { s with len := 0#8, crPend := false, talkBad := false, starSeen := false, starIdx := 0#8, xacc := 0#8 }

/-- The result port of the step: a record, or none (R23). -/
def emit (r : Option Result) (s : State) : State := { s with out := r }

/-- `NEEDS_CONT <- (LEN != 0) or (CR_PEND = 1)`, the last statement of FEED (R70). -/
def updateNeedsCont (s : State) : State := { s with needsCont := needsContOf s.len s.crPend }

/-- `raise IllegalCommand` (R8, R63, R111): the sticky flag is set and nothing else changes. -/
def raiseIllegalCommand (s : State) : State := { s with illcmd := true }

/-- LB at the indices below `n`, filled with the free bytes of a reset step (R130). -/
def freeLb (epoch : Nat) : Nat → Memory
  | 0 => []
  | n + 1 => (freeLb epoch n).write n (Config.freeByte epoch n)

/-- A hardware-reset step (R130): every register and flag 0, ILLCMD included, no record; LB holds
free bytes at every location (log entry 6). -/
def hardReset (s : State) : State :=
  { s with
    lb := freeLb s.freeCount s.cfg.lineCap
    len := 0#8
    crPend := false
    needsCont := false
    talkBad := false
    starSeen := false
    starIdx := 0#8
    xacc := 0#8
    illcmd := false
    out := none
    freeCount := s.freeCount + 1 }

/-- The outcome of a meaning: its next state, or the fault of the access that failed. -/
def finish (r : Except Fault State) : Host.Outcome State Fault Refusal :=
  match r with
  | .ok s => .next s
  | .error f => .fault f

end Sys2Proof.Machine
end

