-- ==== Sys2Proof/Machine/Control.lean ====
section
/-! DEFINITION. The control commands NOP, CLR and RSV (rules R60 to R63). Their data bits are
ignored (R48). -/

namespace Sys2Proof.Machine

/-- NOP (R60): no state changes, no record. -/
def execNop (_data : Byte) (s : State) : Host.Outcome State Fault Refusal := .next (emit none s)

/-- CLR (R61): the line state and NEEDS_CONT to 0, LB and ILLCMD unchanged, no record. -/
def execClr (_data : Byte) (s : State) : Host.Outcome State Fault Refusal :=
  .next (emit none { clearLine s with needsCont := false })

/-- RSV (R63): IllegalCommand is raised, every other register and LB unchanged, no record. -/
def execRsv (_data : Byte) (s : State) : Host.Outcome State Fault Refusal :=
  .next (emit none (raiseIllegalCommand s))

end Sys2Proof.Machine
end

