-- ==== Sys2Proof/Machine/Validate.lean ====
section
/-! DEFINITION. The evaluation of a completed line over NFRV's registers: `evaluate()` of rule R100.
It reads the state and writes none of it (R90). -/

namespace Sys2Proof.Machine

/-- Check (d) over the registers (R100): the field has two characters and they are, up to case, the
digits of XACC. The tests run left to right and stop at the first that decides. -/
def checksumMatches (s : State) : Except Fault Bool :=
  if fieldLength s ≠ 2#8 then .ok false
  else do
    let d0 ← memRead s (s.starIdx + 1#8).toNat
    if fold d0 ≠ hexdig (hiNibble s.xacc) then .ok false
    else do
      let d1 ← memRead s (s.starIdx + 2#8).toNat
      .ok (fold d1 == hexdig (loNibble s.xacc))

/-- The verdict of the line: the error of the first check that fails, else OK (R91, R100). -/
def verdictOf (s : State) : Except Fault Verdict :=
  if s.talkBad ∨ s.len < 3#8 then .ok .badTalker
  else if 82#8 < s.len then .ok .tooLong
  else if ¬ s.starSeen ∨ s.starIdx = s.len - 1#8 then .ok .missingChecksum
  else do
    let good ← checksumMatches s
    .ok (if good then .ok else .checksumMismatch)

/-- `res_type` of an OK line (R101): the characters at indices 3, 4 and 5, by position. -/
def readType (s : State) : Except Fault (BitVec 24) := do
  let a ← memRead s 3
  let b ← memRead s 4
  let c ← memRead s 5
  .ok (packType a b c)

/-- `res_nfields` of an OK line (R103): one more than the number of `,` before the first `*`. -/
def countFields (s : State) : Except Fault (BitVec 7) := do
  let region ← memReadRange s 0 s.starIdx.toNat
  .ok (BitVec.ofNat 7 (1 + region.count Config.comma))

/-- The record with the parts of a Sentence when the verdict is OK, and without them when not
(R100, R102). -/
def recordParts (s : State) (v : Verdict) (text : List Byte) : Except Fault Result :=
  let r : Result :=
    { verdict := v, len := s.len, trunc := decide (s.cfg.lineCap < s.len.toNat), text := text,
      typeCode := 0#24, star := 0#8, nfields := 0#7 }
  if v = .ok then do
    let ty ← readType s
    let k ← countFields s
    .ok { r with typeCode := ty, star := s.starIdx, nfields := k }
  else .ok r

/-- `evaluate()` (R100), called with LEN ≠ 0 before the line is cleared. -/
def evaluate (s : State) : Except Fault Result := do
  let v ← verdictOf s
  let text ← memReadRange s 0 (storedCount s)
  recordParts s v text

end Sys2Proof.Machine
end

