-- ==== Sys2Proof/Machine/Feed.lean ====
section
/-! DEFINITION. FEED (rules R70 to R76) and its rows. FEED is one command whose rule has cases (R54);
the rows FEED_CR, FEED_LF, FEED_STAR and FEED_COMMA are FEED at one character each. -/

namespace Sys2Proof.Machine

/-- FEED of CR (R72): an earlier held CR is committed, the new one is held. -/
def holdCr (s : State) : Except Fault State := do
  let s ← appendHeldCr s
  .ok { s with crPend := true }

/-- FEED of LF with a held CR (R73): the line, if not empty, is evaluated and its record emitted;
then the line state is cleared. An empty line emits nothing (R75). -/
def completeLine (s : State) : Except Fault State :=
  if s.len ≠ 0#8 then do
    let r ← evaluate s
    .ok (clearLine (emit (some r) s))
  else .ok (clearLine s)

/-- FEED of any other character, and of LF with no held CR (R74): a held CR is committed first. -/
def commitChar (d : Byte) (s : State) : Except Fault State := do
  let s ← appendHeldCr s
  append d { s with crPend := false }

/-- The case of FEED that a character and CR_PEND select (R70). -/
def feedCase (d : Byte) (s : State) : Except Fault State :=
  if d = Config.cr then holdCr s
  else if d = Config.lf ∧ s.crPend then completeLine s
  else commitChar d s

/-- The step of `FEED d` (R70): no record unless a line ends, the case, then NEEDS_CONT. -/
def feedChar (d : Byte) (s : State) : Except Fault State := do
  let s ← feedCase d (emit none s)
  .ok (updateNeedsCont s)

/-- FEED (R70). -/
def execFeed (data : Byte) (s : State) : Host.Outcome State Fault Refusal := finish (feedChar data s)

/-- FEED_CR (R70, R72). -/
def execFeedCr (s : State) : Host.Outcome State Fault Refusal := finish (feedChar Config.cr s)

/-- FEED_LF (R70, R73, R74). -/
def execFeedLf (s : State) : Host.Outcome State Fault Refusal := finish (feedChar Config.lf s)

/-- FEED_STAR (R70, R71). -/
def execFeedStar (s : State) : Host.Outcome State Fault Refusal := finish (feedChar Config.star s)

/-- FEED_COMMA (R70, R71). -/
def execFeedComma (s : State) : Host.Outcome State Fault Refusal := finish (feedChar Config.comma s)

end Sys2Proof.Machine
end

