-- ==== Sys2Proof/Syntax.lean ====
section
/-! DEFINITION. The commands of NFRV: one constructor for each row of `spec/opcode_table.json`, and
the lines of the command notation of rules R50 and R51. -/

namespace Sys2Proof

/-- A command. `data` is bits 7:0 of the word (R45). NOP, CLR and RSV ignore it (R48); it is kept so
that a command stands for exactly one word (log entry 8). FEED is one command (R54); its rows
FEED_CR, FEED_LF, FEED_STAR and FEED_COMMA have constructors of their own. -/
inductive Instr where
  /-- NOP, R60. -/
  | nop (data : Byte)
  /-- FEED, R70: every character with no row of its own. -/
  | feed (data : Byte)
  /-- FEED_CR: FEED of 0x0D, R72. -/
  | feedCr
  /-- FEED_LF: FEED of 0x0A, R73 and R74. -/
  | feedLf
  /-- FEED_STAR: FEED of 0x2A, R71 and R18. -/
  | feedStar
  /-- FEED_COMMA: FEED of 0x2C, R71. -/
  | feedComma
  /-- CLR, R61. -/
  | clr (data : Byte)
  /-- RSV, the reserved command, R63. -/
  | rsv (data : Byte)
deriving DecidableEq, Repr

/-- One line of a command sequence (R50) or a pseudo-command (R51). -/
inductive AsmLine where
  | nop
  | clr
  | feed (b : Byte)
  | rsv (b : Byte)
  | start
  | reset
  | stop
  | cancel
  | done
  | feeds (s : List Byte)
deriving DecidableEq, Repr

end Sys2Proof
end

