-- ==== Sys2Proof/Machine/Dispatch.lean ====
section
/-! DEFINITION. One arm per command: the direct call of its meaning. -/

namespace Sys2Proof.Machine

-- `step(S, cmd)` of rule R8 for a decoded command: the next state holds S' and the step's output.
def exec (i : Instr) (s : State) : Host.Outcome State Fault Refusal :=
  match i with
  | .nop data => Sys2Proof.Machine.execNop data s
  | .feed data => Sys2Proof.Machine.execFeed data s
  | .feedCr => Sys2Proof.Machine.execFeedCr s
  | .feedLf => Sys2Proof.Machine.execFeedLf s
  | .feedStar => Sys2Proof.Machine.execFeedStar s
  | .feedComma => Sys2Proof.Machine.execFeedComma s
  | .clr data => Sys2Proof.Machine.execClr data s
  | .rsv data => Sys2Proof.Machine.execRsv data s

end Sys2Proof.Machine
end

