-- ==== Sys2Proof/WellFormed.lean ====
section
/-! DEFINITION. Which terms of `Instr` are what a decoder may answer: by rule R54 the row with the
most mask bits wins, so the general FEED row never stands for CR, LF, `*` or `,`. -/

namespace Sys2Proof

/-- The FEED data values that have a row of their own in the opcode table (R47). -/
def hasOwnRow (d : Byte) : Bool :=
  d == Config.cr || d == Config.lf || d == Config.star || d == Config.comma

/-- The decoder's normal form (R54, log entry 9). Only FEED's operand is restricted. -/
def Instr.wf : Instr → Bool
  | .nop _ => true
  | .feed d => !hasOwnRow d
  | .feedCr => true
  | .feedLf => true
  | .feedStar => true
  | .feedComma => true
  | .clr _ => true
  | .rsv _ => true

end Sys2Proof
end

