-- ==== Sys2Proof/Decode.lean ====
section
/-! DEFINITION. Decoding and encoding of command words (rules R45 to R49, R54), the opcode table as
data, and the words of the command notation (rules R50, R51). A command word is 10 bits on the
command port and is never stored (R39), so there is no byte form of it. -/

namespace Sys2Proof

/-- Field `op`, bits 9:8 (R45). -/
def opField (w : CmdWord) : BitVec 2 := w.extractLsb' 8 2

/-- Field `data`, bits 7:0 (R45, R46: no extension, scaling or shifting). -/
def dataField (w : CmdWord) : Byte := w.extractLsb' 0 8

/-- The word with the given fields: `op` in bits 9:8, `data` in bits 7:0 (R45). -/
def mkWord (op : BitVec 2) (data : Byte) : CmdWord := op ++ data

/-- The FEED of a character: its own row where the table has one, else the general row (R54). -/
def decodeFeed (d : Byte) : Instr :=
  if d = Config.cr then .feedCr
  else if d = Config.lf then .feedLf
  else if d = Config.star then .feedStar
  else if d = Config.comma then .feedComma
  else .feed d

/-- A command word read by its `op` field alone (R49). Every word is a command (R54). -/
def decode (w : CmdWord) : Instr :=
  if opField w = 0#2 then .nop (dataField w)
  else if opField w = 1#2 then decodeFeed (dataField w)
  else if opField w = 2#2 then .clr (dataField w)
  else .rsv (dataField w)

/-- Why a number is not decoded. -/
inductive DecodeError where
  /-- The number needs more than the 10 bits of a command word (R49). Safe: no such word can be on
  `cmd[9:0]`. -/
  | widerThanCommandWord
deriving DecidableEq, Repr

/-- Any number, read as a command word: refused by name when it has a bit above bit 9. -/
def decodeNat (w : Nat) : Except DecodeError Instr :=
  if w < 1024 then .ok (decode (BitVec.ofNat 10 w)) else .error .widerThanCommandWord

/-- The decoder on a word numbered as `spec/opcode_table.json` numbers it: bit 0 of the 10-bit word
is bit 0, and a whole-byte width leaves the bits above bit 9 zero (log entry 12). -/
def decodeTableWord (_nbits w : Nat) : Option Instr := (decodeNat w).toOption

/-- The word of a command (R45). -/
def encode : Instr → CmdWord
  | .nop d => mkWord 0#2 d
  | .feed d => mkWord 1#2 d
  | .feedCr => mkWord 1#2 Config.cr
  | .feedLf => mkWord 1#2 Config.lf
  | .feedStar => mkWord 1#2 Config.star
  | .feedComma => mkWord 1#2 Config.comma
  | .clr d => mkWord 2#2 d
  | .rsv d => mkWord 3#2 d

/-- The character a FEED command carries (R46); `none` for the other commands. -/
def Instr.char? : Instr → Option Byte
  | .nop _ => none
  | .feed d => some d
  | .feedCr => some Config.cr
  | .feedLf => some Config.lf
  | .feedStar => some Config.star
  | .feedComma => some Config.comma
  | .clr _ => none
  | .rsv _ => none

/-! ## The opcode table as data (R54) -/

/-- A row of the opcode table: a word selects it when `(w & mask) = match`. -/
structure Row where
  mnemonic : String
  pattern : CmdWord
  mask : CmdWord
deriving DecidableEq, Repr

/-- The eight rows of `spec/opcode_table.json`. -/
def opcodeTable : List Row :=
  [⟨"NOP", 0x000, 0x300⟩, ⟨"FEED", 0x100, 0x300⟩, ⟨"FEED_CR", 0x10D, 0x3FF⟩,
   ⟨"FEED_LF", 0x10A, 0x3FF⟩, ⟨"FEED_STAR", 0x12A, 0x3FF⟩, ⟨"FEED_COMMA", 0x12C, 0x3FF⟩,
   ⟨"CLR", 0x200, 0x300⟩, ⟨"RSV", 0x300, 0x300⟩]

/-- R54: a word selects the row. -/
def Row.selects (r : Row) (w : CmdWord) : Bool := (w &&& r.mask) == r.pattern

/-- The number of mask bits a row sets (R54). -/
def Row.maskBits (r : Row) : Nat :=
  ((List.range 10).filter fun i => r.mask.getLsbD i).length

/-- The better of a row found so far and another row: more mask bits win (R54). -/
def Row.better (best : Option Row) (r : Row) : Option Row :=
  match best with
  | none => some r
  | some b => if b.maskBits < r.maskBits then some r else some b

/-- The row of a word: of the rows it selects, the one with the most mask bits set (R54). -/
def tableRow (w : CmdWord) : Option Row :=
  (opcodeTable.filter fun r => r.selects w).foldl Row.better none

/-- The mnemonic of a command in the opcode table. -/
def Instr.mnemonic : Instr → String
  | .nop _ => "NOP"
  | .feed _ => "FEED"
  | .feedCr => "FEED_CR"
  | .feedLf => "FEED_LF"
  | .feedStar => "FEED_STAR"
  | .feedComma => "FEED_COMMA"
  | .clr _ => "CLR"
  | .rsv _ => "RSV"

/-! ## Command notation (R50, R51) -/

/-- The word `FEED b` (R45). -/
def feedWord (b : Byte) : CmdWord := mkWord 1#2 b

/-- The canonical NOP word (R45). -/
def nopWord : CmdWord := 0x000#10

/-- The canonical CLR word (R45). -/
def clrWord : CmdWord := 0x200#10

/-- The words of a line: R45 for the four commands, R51 for the pseudo-commands. -/
def AsmLine.words : AsmLine → List CmdWord
  | .nop => [nopWord]
  | .clr => [clrWord]
  | .feed b => [feedWord b]
  | .rsv b => [mkWord 3#2 b]
  | .start => [clrWord]
  | .reset => [clrWord]
  | .stop => [clrWord]
  | .cancel => [clrWord]
  | .done => [clrWord]
  | .feeds s => s.map feedWord

/-- The words of a command sequence, in order. -/
def asmWords (ls : List AsmLine) : List CmdWord := ls.flatMap AsmLine.words

end Sys2Proof
end

