-- ==== Sys2Proof/Machine/Ports.lean ====
section
/-! DEFINITION. The ports of NFRV: what the block takes from the command port (rules R22, R133), and
the signals of the result port (rule R23) and of the status port (rule R24) as functions of the
state. -/

namespace Sys2Proof.Machine

/-! ## Command port (R22) -/

/-- The pins while the host presents nothing: `cmd_valid` = 0 (R22, R125). -/
def Pins.idle : Pins := { rst := false, cmdValid := false, cmd := nopWord }

/-- The pins presenting a command word. -/
def Pins.ofWord (w : CmdWord) : Pins := { rst := false, cmdValid := true, cmd := w }

/-- The word the block takes: `cmd` when `cmd_valid` = 1, the NOP word when it is 0 (R22). -/
def Pins.word (p : Pins) : CmdWord := if p.cmdValid then p.cmd else nopWord

/-- The pins at the next clock edge; idle when the host has presented nothing (log entry 1). -/
def pinsNow (s : State) : Pins := s.input.headD Pins.idle

/-- The state with the pins of the next clock edge taken. -/
def takePins (s : State) : State := { s with input := s.input.tail }

/-! ## Result port (R23) -/

/-- `res_verdict` of a verdict (R53, R110). -/
def Verdict.code : Verdict → BitVec 3
  | .ok => 0
  | .badTalker => 1
  | .tooLong => 2
  | .missingChecksum => 3
  | .checksumMismatch => 4

/-- The signals of the result port. `resText` has LINE_CAP entries. -/
structure ResultPort where
  resValid : BitVec 1
  resVerdict : BitVec 3
  resLen : BitVec 8
  resTrunc : BitVec 1
  resText : List Byte
  resType : BitVec 24
  resStar : BitVec 8
  resNfields : BitVec 7
deriving DecidableEq, Repr

/-- The text of a record on `res_text[0 .. LINE_CAP-1]`: 0 above its characters (R23). -/
def padText (cap : Nat) (text : List Byte) : List Byte :=
  (text ++ List.replicate cap 0).take cap

/-- The result port in the latest step; every signal 0 when no record was emitted (R23). -/
def resultPort (s : State) : ResultPort :=
  match s.out with
  | none =>
    { resValid := 0, resVerdict := 0, resLen := 0, resTrunc := 0,
      resText := padText s.cfg.lineCap [], resType := 0, resStar := 0, resNfields := 0 }
  | some r =>
    { resValid := 1, resVerdict := r.verdict.code, resLen := r.len,
      resTrunc := BitVec.ofBool r.trunc, resText := padText s.cfg.lineCap r.text,
      resType := r.typeCode, resStar := r.star, resNfields := r.nfields }

/-! ## Status port (R24) -/

/-- The signals of the status port. -/
structure StatusPort where
  stLen : BitVec 8
  stCrPend : BitVec 1
  stNeedsCont : BitVec 1
  stTalkBad : BitVec 1
  stStarSeen : BitVec 1
  stStarIdx : BitVec 8
  stXacc : BitVec 8
  stIllcmd : BitVec 1
deriving DecidableEq, Repr

/-- The status port: every register after the latest step, read-only (R24). -/
def statusPort (s : State) : StatusPort :=
  { stLen := s.len, stCrPend := BitVec.ofBool s.crPend, stNeedsCont := BitVec.ofBool s.needsCont,
    stTalkBad := BitVec.ofBool s.talkBad, stStarSeen := BitVec.ofBool s.starSeen,
    stStarIdx := s.starIdx, stXacc := s.xacc, stIllcmd := BitVec.ofBool s.illcmd }

end Sys2Proof.Machine
end

