-- ==== Sys2Proof/Machine/Step.lean ====
section
/-! DEFINITION. One step: the pins of one clock edge (rule R25). `rst` wins over a command (R133);
otherwise the word on the command port is decoded and executed (R22). -/

namespace Sys2Proof.Machine

/-- One step of the block. -/
def step (s : State) : Host.Outcome State Fault Refusal :=
  if (pinsNow s).rst then .next (hardReset (takePins s))
  else exec (decode (pinsNow s).word) (takePins s)

/-- The state with a command word presented at the next clock edge, in place of what was to be
presented there (log entries 2 and 12). The table's bit 0 is bit 0 of `cmd[9:0]`. -/
def State.withFetchWord (s : State) (_nbits w : Nat) : State :=
  { s with input := Pins.ofWord (BitVec.ofNat 10 w) :: s.input.tail }

end Sys2Proof.Machine
end

