-- ==== Sys2Proof/Machine/Assembler.lean ====
section
/-! DEFINITION. The text form of command sequences (rules R50, R51): one command per line, text
after a semicolon is a comment. What the rules leave open of it is log entry 15. -/

namespace Sys2Proof

/-- The text without its leading blanks. -/
def skipBlanks : List Char → List Char
  | [] => []
  | c :: cs => if c = ' ' ∨ c = '\t' then skipBlanks cs else c :: cs

/-- The leading run of characters that satisfy `p`, and the rest. -/
def takeRun (p : Char → Bool) : List Char → List Char × List Char
  | [] => ([], [])
  | c :: cs =>
    if p c then
      let (run, rest) := takeRun p cs
      (c :: run, rest)
    else ([], c :: cs)

/-- A hexadecimal digit, either case. -/
def hexValue? (c : Char) : Option Nat :=
  let n := c.toNat
  if 0x30 ≤ n ∧ n ≤ 0x39 then some (n - 0x30)
  else if 0x41 ≤ n ∧ n ≤ 0x46 then some (n - 0x37)
  else if 0x61 ≤ n ∧ n ≤ 0x66 then some (n - 0x57)
  else none

/-- Two hexadecimal digits `HH`. -/
def hexByte? (a b : Char) : Option Byte :=
  match hexValue? a, hexValue? b with
  | some x, some y => some (BitVec.ofNat 8 (16 * x + y))
  | _, _ => none

/-- A character that stands for itself; its code must be one byte. -/
def plainByte? (c : Char) : Option Byte := if c.toNat < 256 then some (BitVec.ofNat 8 c.toNat) else none

/-- The escapes `\r`, `\n`, `\\` and the escaped quote of the literal (R50, R51). -/
def escape? (quote c : Char) : Option Byte :=
  if c = 'r' then some 0x0D
  else if c = 'n' then some 0x0A
  else if c = '\\' ∨ c = quote then plainByte? c
  else none

/-- The value of a run of decimal digits. -/
def decimalValue (ds : List Char) : Nat := ds.foldl (fun n c => 10 * n + (c.toNat - 0x30)) 0

/-- `0` to `9`. -/
def isDecimal (c : Char) : Bool := 0x30 ≤ c.toNat && c.toNat ≤ 0x39

/-- A decimal number 0 to 255 at the start of a text. DESIGN CHOICE (log entry 15): it may have leading
zeros. -/
def decimalByte? (cs : List Char) : Option (Byte × List Char) :=
  let (ds, rest) := takeRun isDecimal cs
  if ds ≠ [] ∧ decimalValue ds ≤ 255 then some (BitVec.ofNat 8 (decimalValue ds), rest) else none

/-- `<byte>` of R50: `0xHH`, a decimal number 0 to 255, or a character literal. -/
def parseByte? : List Char → Option (Byte × List Char)
  | '0' :: 'x' :: a :: b :: rest => (hexByte? a b).map fun v => (v, rest)
  | '\'' :: '\\' :: c :: '\'' :: rest => (escape? '\'' c).map fun v => (v, rest)
  | '\'' :: c :: '\'' :: rest =>
    if c = '\\' ∨ c = '\'' then none else (plainByte? c).map fun v => (v, rest)
  | cs => decimalByte? cs

/-- The rest of a string literal after its opening quote (R51), with the escape `\xHH`. -/
def parseString? : List Char → Option (List Byte × List Char)
  | [] => none
  | '"' :: rest => some ([], rest)
  | '\\' :: 'x' :: a :: b :: rest =>
    match hexByte? a b, parseString? rest with
    | some v, some (vs, tail) => some (v :: vs, tail)
    | _, _ => none
  | '\\' :: c :: rest =>
    match escape? '"' c, parseString? rest with
    | some v, some (vs, tail) => some (v :: vs, tail)
    | _, _ => none
  | c :: rest =>
    match plainByte? c, parseString? rest with
    | some v, some (vs, tail) => some (v :: vs, tail)
    | _, _ => none

/-- Nothing is left of the line but blanks and a comment. -/
def lineEnds (cs : List Char) : Bool :=
  match skipBlanks cs with
  | [] => true
  | c :: _ => c == ';'

/-- The line with the given command, if nothing follows it. -/
def closeLine (l : AsmLine) (rest : List Char) : Option (Option AsmLine) :=
  if lineEnds rest then some (some l) else none

/-- The operand of a command: a byte, or the string of FEEDS. -/
def parseOperand? (word rest : List Char) : Option (Option AsmLine) :=
  if word = "FEED".toList then do
    let (b, tail) ← parseByte? rest
    closeLine (.feed b) tail
  else if word = "RSV".toList then do
    let (b, tail) ← parseByte? rest
    closeLine (.rsv b) tail
  else if word = "FEEDS".toList then
    match rest with
    | '"' :: more => do
      let (bs, tail) ← parseString? more
      closeLine (.feeds bs) tail
    | _ => none
  else none

/-- One line of a command sequence: `some none` for a line with no command, `none` for a text that
is no line of the notation. DESIGN CHOICE (log entry 15): R50 shows a blank between a mnemonic and its
operand and states no rule, so a blank there may be absent (`FEED36`), as may any blank; leading
blanks and lines with no command are read too. -/
def parseLine? (cs : List Char) : Option (Option AsmLine) :=
  if lineEnds cs then some none
  else
    let (word, rest) := takeRun (fun c => 0x41 ≤ c.toNat && c.toNat ≤ 0x5A) (skipBlanks cs)
    if word = "NOP".toList then closeLine .nop rest
    else if word = "CLR".toList then closeLine .clr rest
    else if word = "START".toList then closeLine .start rest
    else if word = "RESET".toList then closeLine .reset rest
    else if word = "STOP".toList then closeLine .stop rest
    else if word = "CANCEL".toList then closeLine .cancel rest
    else if word = "DONE".toList then closeLine .done rest
    else parseOperand? word (skipBlanks rest)

/-- The words of a command sequence given line by line (R50). -/
def assemble? : List String → Option (List CmdWord)
  | [] => some []
  | l :: ls =>
    match parseLine? l.toList, assemble? ls with
    | some (some a), some ws => some (a.words ++ ws)
    | some none, some ws => some ws
    | _, _ => none

end Sys2Proof
end

