-- ==== Sys2Proof/Machine/Run.lean ====
section
/-! DEFINITION. Runs (rule R136): a finite sequence of pins presented from a state, and the records
emitted, in order, with the final state. -/

namespace Sys2Proof.Machine

/-- `n` steps: the records emitted, in order, and the state reached; `none` if a step stops. -/
def runSteps : Nat → State → Option (List Result × State)
  | 0, s => some ([], s)
  | n + 1, s =>
    match step s with
    | .next s1 => (runSteps n s1).map fun r => (s1.out.toList ++ r.1, r.2)
    | .fault _ => none
    | .refused _ => none

/-- The run of a sequence of pins from a state, one step for each. -/
def runPins (ps : List Pins) (s : State) : Option (List Result × State) :=
  runSteps ps.length { s with input := ps }

/-- The run of a sequence of command words (R136). -/
def runWords (ws : List CmdWord) (s : State) : Option (List Result × State) :=
  runPins (ws.map Pins.ofWord) s

/-- The runs of successive sequences of pins, each from the state the one before left: the records
of each, and the last state. -/
def runEach : List (List Pins) → State → Option (List (List Result) × State)
  | [], s => some ([], s)
  | ps :: rest, s =>
    match runPins ps s with
    | none => none
    | some (rs, s1) => (runEach rest s1).map fun r => (rs :: r.1, r.2)

/-- What a step does to the line: a character fed, or the line cleared. -/
inductive LineEvent where
  | feed (d : Byte)
  | clr
deriving DecidableEq, Repr

/-- The line event of a command; NOP and RSV have none (R82). -/
def lineEvent? (i : Instr) : Option LineEvent :=
  match i with
  | .clr _ => some .clr
  | .nop _ => none
  | .rsv _ => none
  | .feed d => some (.feed d)
  | .feedCr => some (.feed Config.cr)
  | .feedLf => some (.feed Config.lf)
  | .feedStar => some (.feed Config.star)
  | .feedComma => some (.feed Config.comma)

/-- The line event of the command the block takes from the pins. -/
def Pins.lineEvent? (p : Pins) : Option LineEvent := Sys2Proof.Machine.lineEvent? (decode p.word)

/-- The character the block is fed by the pins, if any. -/
def Pins.char? (p : Pins) : Option Byte := (decode p.word).char?

/-- The pins of a chunk with idle steps (R79): no reset, and each step a FEED or a NOP. -/
def Pins.feedsOrIdles (p : Pins) : Bool :=
  !p.rst && (opField p.word == 0#2 || opField p.word == 1#2)

/-- The characters a sequence of pins feeds, in order. -/
def charsOf (ps : List Pins) : List Byte := ps.filterMap Pins.char?

end Sys2Proof.Machine
end

