-- ==== Sys2Proof/Machine/Source.lean ====
section
/-! DEFINITION. The source's pure functions, transcribed by the spec: `validate` (rules R90 to R103),
the checksum converter (rules R96, R97) and `feed_chunk` (rule R78). No step calls them; the machine
computes the same things over its registers (rules R80, R100), and claims say so in their terms. -/

namespace Sys2Proof.Source
open Sys2Proof.Machine

/-! ## The validator -/

/-- The four validation errors (R91, R110). -/
inductive ValidationError where
  | badTalker
  | tooLong
  | missingChecksum
  | checksumMismatch
deriving DecidableEq, Repr

/-- A validated sentence (R99, R101): talker, type code, field list and the original text. -/
structure Sentence where
  talker : List Byte
  typeCode : List Byte
  fields : List (List Byte)
  text : List Byte
deriving DecidableEq, Repr

/-- The index of the first `*` of a text; its length when there is none (R94). -/
def firstStar (t : List Byte) : Nat := t.idxOf Config.star

/-- The computed checksum: the exclusive-or of `t[1..s)`, s the index of the first `*` (R96). -/
def computedChecksum (t : List Byte) : Byte := ((t.take (firstStar t)).drop 1).foldl xor8 0#8

/-- The checksum field: everything after the first `*` (R94). -/
def checksumField (t : List Byte) : List Byte := t.drop (firstStar t + 1)

/-- `split(t, ',')` (R103): always one field more than there are commas. -/
def splitFields : List Byte → List (List Byte)
  | [] => [[]]
  | c :: cs =>
    if c = Config.comma then [] :: splitFields cs
    else match splitFields cs with
      | [] => [[c]]
      | f :: fs => (c :: f) :: fs

/-- `validate(t)` (R99): the checks in order, the first failure wins (R91). -/
def validate (t : List Byte) : Except ValidationError Sentence :=
  if t.take Config.talker.length ≠ Config.talker then .error .badTalker
  else if Config.maxLen < t.length then .error .tooLong
  else if Config.star ∉ t ∨ firstStar t = t.length - 1 then .error .missingChecksum
  else if (checksumField t).map fold ≠ renderChecksum (computedChecksum t) then
    .error .checksumMismatch
  else .ok
    { talker := Config.talker
      typeCode := (t.drop Config.typeOff).take Config.typeLen
      fields := splitFields (t.take (firstStar t))
      text := t }

/-- The verdict under which an error is reported (R110). -/
def ValidationError.verdict : ValidationError → Verdict
  | .badTalker => .badTalker
  | .tooLong => .tooLong
  | .missingChecksum => .missingChecksum
  | .checksumMismatch => .checksumMismatch

/-- The verdict of a text: OK, or the error of the first failing check (R91). -/
def verdict (t : List Byte) : Verdict :=
  match validate t with
  | .ok _ => .ok
  | .error e => e.verdict

/-! ## The reassembler (R78) -/

/-- `split(cat, "\r\n")`: k+1 fragments when `cat` holds k terminators. -/
def splitLines : List Byte → List (List Byte)
  | [] => [[]]
  | [c] => [[c]]
  | c :: d :: rest =>
    if c = Config.cr ∧ d = Config.lf then [] :: splitLines rest
    else match splitLines (d :: rest) with
      | [] => [[c]]
      | f :: fs => (c :: f) :: fs

/-- The text ends with the terminator. -/
def endsWithTerminator (t : List Byte) : Bool :=
  2 ≤ t.length && t.drop (t.length - 2) == Config.terminator

/-- `feed_chunk(buf, chunk)` (R78): the new buffer and the emitted strings, in order. -/
def feedChunk (buf chunk : List Byte) : List Byte × List (List Byte) :=
  let cat := buf ++ chunk
  let frags := splitLines cat
  if endsWithTerminator cat then ([], frags.filter (· ≠ []))
  else (frags.getLastD [], frags.dropLast.filter (· ≠ []))

/-- Successive calls of `feed_chunk`, each on the buffer the one before left: the last buffer and
what each call emitted. -/
def feedChunks (buf : List Byte) : List (List Byte) → List Byte × List (List (List Byte))
  | [] => (buf, [])
  | c :: cs =>
    let (buf1, e) := feedChunk buf c
    let (buf2, es) := feedChunks buf1 cs
    (buf2, e :: es)

end Sys2Proof.Source
end

