-- ==== Sys2Proof/Safety.lean ====
section
/-! DEFINITION. What claims say of a state: the line it holds (rules R15, R20), the invariant of a
run, the phases (rule R77), and which states are faulted (rule R136, U1). -/

namespace Sys2Proof.Machine

/-! ## The commit, said as one state -/

/-- The state after `append(c)` (R71), field by field; every LEN on the right is the value before. -/
def committed (c : Byte) (s : State) : State :=
  { s with
    lb := if s.len.toNat < s.cfg.lineCap then s.lb.write s.len.toNat c else s.lb
    talkBad := s.talkBad || ((s.len == 0#8 && c != 0x24#8) || (s.len == 1#8 && c != 0x47#8) ||
      (s.len == 2#8 && c != 0x50#8))
    starSeen := s.starSeen || c == 0x2A#8
    starIdx := if s.starSeen = false ∧ c = 0x2A#8 then s.len else s.starIdx
    xacc := if s.starSeen = false ∧ c ≠ 0x2A#8 ∧ s.len ≠ 0#8 then s.xacc ^^^ c else s.xacc
    len := BitVec.ofNat 8 (min (s.len.toNat + 1) 255) }

/-- The state after `if CR_PEND = 1 then append(0x0D)` (R70). -/
def heldCommitted (s : State) : State := if s.crPend then committed 0x0D#8 s else s

/-! ## The line a state holds -/

/-- The committed characters of the current line are `t`, in the registers and in LB: the clauses of
rule R20 in its order, but for NEEDS_CONT, which only the end of a FEED updates. -/
structure Holds (s : State) (t : List Byte) : Prop where
  len : s.len.toNat = min t.length 255
  stored : ∀ i, i < min t.length s.cfg.lineCap → s.lb.read i = t.getD i 0#8
  talkBad : s.talkBad = true ↔ ∃ i, i < min t.length 3 ∧ t.getD i 0#8 ≠ Config.talker.getD i 0#8
  starSeen : s.starSeen = true ↔ Config.star ∈ t
  starIdx : s.starIdx.toNat = if Config.star ∈ t then min (Source.firstStar t) 255 else 0
  xacc : s.xacc = Source.computedChecksum t

/-- The state holds the line `t` and NEEDS_CONT says so: all clauses of rule R20. -/
structure Tracks (s : State) (t : List Byte) : Prop extends Holds s t where
  needsCont : s.needsCont = true ↔ t ≠ [] ∨ s.crPend = true

/-- The source's pending-partial-line buffer, `PEND` (R20), for a state that tracks `t`. -/
def pending (s : State) (t : List Byte) : List Byte := t ++ if s.crPend then [Config.cr] else []

/-- The pending buffer of the state holds no terminator, and a CR at its end is held, not committed
(R15). -/
def NoTerminator (s : State) (t : List Byte) : Prop :=
  (∀ i, ¬ (t[i]? = some Config.cr ∧ t[i + 1]? = some Config.lf)) ∧
  (s.crPend = false → t.getLast? ≠ some Config.cr)

/-- The invariant of a run: LB is canonical and lies inside the address space (R30), and the state
holds some line as rules R15 and R20 say. -/
def Inv (s : State) : Prop :=
  s.lb.wf = true ∧ s.lb.within s.cfg.lineCap = true ∧ ∃ t, Tracks s t ∧ NoTerminator s t

/-- The line phases (R77). -/
inductive Phase where
  | empty
  | text
  | cr0
  | crN
deriving DecidableEq, Repr

/-- The phase is a function of (LEN, CR_PEND) (R77). -/
def phaseOf (s : State) : Phase :=
  match s.len == 0#8, s.crPend with
  | true, false => .empty
  | false, false => .text
  | true, true => .cr0
  | false, true => .crN

/-- The phase after a command: the transition table of R77, by the character fed. -/
def phaseAfter (p : Phase) (i : Instr) : Phase :=
  match i.char? with
  | some d =>
    if d = Config.cr then (match p with | .empty => .cr0 | .text => .crN | .cr0 => .crN | .crN => .crN)
    else if d = Config.lf then
      (match p with | .empty => .text | .text => .text | .cr0 => .empty | .crN => .empty)
    else .text
  | none =>
    match i with
    | .clr _ => .empty
    | _ => p

/-- LEN after a command in the transition table of R77, before it saturates at 255. -/
def tableLen (p : Phase) (i : Instr) (len : Nat) : Nat :=
  match i.char? with
  | some d =>
    if d = Config.cr then (match p with | .empty => 0 | .text => len | .cr0 => 1 | .crN => len + 1)
    else if d = Config.lf then
      (match p with | .empty => 1 | .text => len + 1 | .cr0 => 0 | .crN => 0)
    else (match p with | .empty => 1 | .text => len + 1 | .cr0 => 2 | .crN => len + 2)
  | none =>
    match i with
    | .clr _ => 0
    | _ => len

/-- The command completes the terminator of a non-empty line (R73): LF with a held CR and LEN ≠ 0. -/
def endsLine (i : Instr) (s : State) : Bool :=
  i.char? == some Config.lf && s.crPend && s.len != 0#8

/-- The committed characters of the line after a command, `t` being those before it (R61, R72 to
R74). -/
def lineAfter (i : Instr) (crPend : Bool) (t : List Byte) : List Byte :=
  match i.char? with
  | some d =>
    if d = Config.cr then t ++ (if crPend then [Config.cr] else [])
    else if d = Config.lf ∧ crPend then []
    else t ++ (if crPend then [Config.cr] else []) ++ [d]
  | none =>
    match i with
    | .clr _ => []
    | _ => t

/-- The four checks on a line's text (R91), each in its own words. -/
def CheckTalker (t : List Byte) : Prop :=
  3 ≤ t.length ∧ t[0]? = some Config.dollar ∧ t[1]? = some Config.upperG ∧ t[2]? = some Config.upperP

/-- Check (b) (R93). -/
def CheckLength (t : List Byte) : Prop := t.length ≤ 82

/-- `k` is the least index of a `*` in the text (R94). -/
def FirstStarAt (t : List Byte) (k : Nat) : Prop :=
  t[k]? = some Config.star ∧ ∀ j, j < k → t[j]? ≠ some Config.star

/-- Check (c) (R94): a `*` with at least one character after the first one. -/
def CheckField (t : List Byte) : Prop := ∃ k, FirstStarAt t k ∧ k + 1 < t.length

/-- Check (d) (R95): the field has two characters and they are the digits of the exclusive-or of
`t[1..k)`, up to case. -/
def CheckChecksum (t : List Byte) : Prop :=
  ∃ k a b, FirstStarAt t k ∧ t.length = k + 3 ∧ t[k + 1]? = some a ∧ t[k + 2]? = some b ∧
    fold a = hexdig (hiNibble (((t.take k).drop 1).foldl xor8 0#8)) ∧
    fold b = hexdig (loNibble (((t.take k).drop 1).foldl xor8 0#8))

/-- A state is faulted when a reserved command has been received since hardware reset (R136, U1).
What is claimed of the source's software is claimed of unfaulted states only. -/
def Unfaulted (s : State) : Prop := s.illcmd = false

end Sys2Proof.Machine
end

