-- ==== Sys2Proof/Certificates/Slice0/Obligations.lean ====
section
/-! DEFINITION. The statements for the provers. Each says which rule of the spec it comes from; a
clause that rests on a choice of the model names its log entry. -/

open Sys2Proof Sys2Proof.Machine
open Host.Outcome (next)

/-! ## Encoding -/

/-- 30_encoding.md sections 1 and 5: no bit of a command word is dropped, in either direction. That the
ignored data bits of NOP, CLR and RSV are kept in the command is log entry 8. -/
def Obligations.DecodeAndEncodeAgree : Prop :=
  (∀ i : Instr, i.wf = true → decode (encode i) = i) ∧
  (∀ w : CmdWord, encode (decode w) = w ∧ (decode w).wf = true)

/-- 30_encoding.md section 5: of the rows a word selects, the one with the most mask bits set is the
decoded command's row. -/
def Obligations.DecodeFollowsTheOpcodeTable : Prop :=
  ∀ w : CmdWord, (tableRow w).map (fun r => r.mnemonic) = some (decode w).mnemonic

/-- 95_test_vectors.md P1, P2, P5 and 40_control.md: words written out there decode to the commands
written beside them. -/
def Obligations.WrittenOutWordsDecode : Prop :=
  decode 0b0000000000 = .nop 0x00 ∧ decode 0b0010100101 = .nop 0xA5 ∧
  decode 0b0100100100 = .feed 0x24 ∧ decode 0b0101000111 = .feed 0x47 ∧
  decode 0b0100001101 = .feedCr ∧ decode 0b0100001010 = .feedLf ∧
  decode 0b0100101010 = .feedStar ∧ decode 0b0100101100 = .feedComma ∧
  decode 0b1000000000 = .clr 0x00 ∧ decode 0b1011111111 = .clr 0xFF ∧
  decode 0b1110100111 = .rsv 0xA7 ∧ decode 0b1100000000 = .rsv 0x00

/-- R48: every word with op = 11 is RSV and no other word is, the data bits of NOP and CLR are
ignored, and no FEED word is illegal. -/
def Obligations.ReservedAndIgnoredEncodings : Prop :=
  (∀ w : CmdWord, opField w = 3#2 ↔ ∃ d, decode w = .rsv d) ∧
  (∀ (d : Byte) (s : State), exec (.rsv d) s = next { s with illcmd := true, out := none }) ∧
  (∀ (d d' : Byte) (s : State),
    exec (.nop d) s = exec (.nop d') s ∧ exec (.clr d) s = exec (.clr d') s) ∧
  (decode 0x0A5#10 = .nop 0xA5#8 ∧ decode 0x2FF#10 = .clr 0xFF#8) ∧
  (∀ w : CmdWord, opField w = 1#2 → (decode w).char? = some (dataField w))

/-- R51: the expansions of the pseudo-commands, and the escapes of a FEEDS string. -/
def Obligations.PseudoCommandsExpand : Prop :=
  (∀ l ∈ [AsmLine.start, .reset, .stop, .cancel, .done], l.words = AsmLine.clr.words ∧ l.words = [0x200#10]) ∧
  (∀ t : List Byte, (AsmLine.feeds t).words = t.flatMap (fun d => (AsmLine.feed d).words)) ∧
  (∀ t : List Byte, (AsmLine.feeds t).words.map (fun w => (decode w).char?) = t.map some) ∧
  (decode 0x200#10 = .clr 0x00#8) ∧
  assemble? ["FEEDS \"\\r\\n\\\\\\\"\\x41\""] = some [0x10D#10, 0x10A#10, 0x15C#10, 0x122#10, 0x141#10]

/-- 30_encoding.md section 2 and 95_test_vectors.md P1, K3: lines of the notation and the words given
for them. -/
def Obligations.NotationAssembles : Prop :=
  assemble? ["CLR            ; 0x200", "FEEDS \"$GPA,p*0A\\r\\n\""] =
    some [0x200, 0x124, 0x147, 0x150, 0x141, 0x12C, 0x170, 0x12A, 0x130, 0x141, 0x10D, 0x10A] ∧
  assemble? ["NOP", "RSV 0xA7", "FEED '\\r'", "FEED 36", "FEED '$'", "STOP"] =
    some [0x000, 0x3A7, 0x10D, 0x124, 0x124, 0x200] ∧
  assemble? ["FEED 256"] = none

/-! ## Steps -/

/-- 10_state.md section 4: a step takes the command word when `cmd_valid` is 1 and NOP when it is 0,
and executes it. That the words to come stand in `input`, and that a step with none of them left is
an idle one, is the model's choice (log entry 1). -/
def Obligations.StepExecutesTheWordTaken : Prop :=
  (∀ (s : State) (p : Pins) (rest : List Pins), s.input = p :: rest → p.rst = false →
    (p.cmdValid = true → step s = exec (decode p.cmd) { s with input := rest }) ∧
    (p.cmdValid = false → step s = exec (decode 0x000#10) { s with input := rest })) ∧
  (∀ s : State, s.input = [] → step s = exec (decode 0x000#10) s)

/-- R133: in a reset step the command port is ignored, so no character is committed, no record is
emitted and no IllegalCommand is raised. -/
def Obligations.ResetIgnoresTheCommand : Prop :=
  ∀ (s : State) (p q : Pins) (rest : List Pins), p.rst = true → q.rst = true →
    step { s with input := p :: rest } = step { s with input := q :: rest } ∧
    ∃ t, step { s with input := p :: rest } = next t ∧
      t.len = 0#8 ∧ t.crPend = false ∧ t.out = none ∧ t.illcmd = false

/-- 70_reset_and_hazards.md section 1 (R130 to R132): what a reset step leaves, in any state: a line in
progress and a held CR are discarded without a record, and ILLCMD is cleared, which CLR does not do.
LB is left open there (log entry 6), so nothing is said of it. -/
def Obligations.ResetStepClearsEveryRegister : Prop :=
  ∀ (s : State) (p : Pins) (rest : List Pins), s.input = p :: rest → p.rst = true →
    ∃ t, step s = next t ∧
      t.len = 0#8 ∧ t.crPend = false ∧ t.needsCont = false ∧ t.talkBad = false ∧
      t.starSeen = false ∧ t.starIdx = 0#8 ∧ t.xacc = 0#8 ∧ t.illcmd = false ∧
      phaseOf t = .empty ∧ (resultPort t).resValid = 0#1 ∧ t.input = rest ∧ t.cfg = s.cfg

/-- 10_state.md section 5 (R26): the reset values. That LB then lists nothing, and the values of the
model's own fields, are the model's choice (log entries 1, 3, 4, 5, 6) and are not stated here. -/
def Obligations.ResetStateHasTheResetValues : Prop :=
  State.reset.len = 0#8 ∧ State.reset.crPend = false ∧ State.reset.needsCont = false ∧
  State.reset.talkBad = false ∧ State.reset.starSeen = false ∧ State.reset.starIdx = 0#8 ∧
  State.reset.xacc = 0#8 ∧ State.reset.illcmd = false ∧ phaseOf State.reset = .empty ∧
  statusPort State.reset = ⟨0, 0, 0, 0, 0, 0, 0, 0⟩

/-- 93_implementation_defined.md Part 1, 20_memory.md section 2 (R32): no command stops in any state,
so no access to LB is ever outside it, and every step has a next state. -/
def Obligations.NoCommandStops : Prop :=
  (∀ (i : Instr) (s : State), ∃ t, exec i s = next t ∧
    t.cfg = s.cfg ∧ t.input = s.input ∧ t.freeCount = s.freeCount) ∧
  (∀ s : State, ∃ t, step s = next t ∧ t.cfg = s.cfg ∧ t.input = s.input.tail)

/-! ## Control commands -/

/-- R60: NOP changes nothing and emits nothing, whatever its data, and between CR and LF it does not
break the terminator. -/
def Obligations.NopChangesNothing : Prop :=
  (∀ d : Byte, decode (0x000#10 + d.setWidth 10) = .nop d) ∧
  (∀ (d : Byte) (s : State), exec (.nop d) s = next { s with out := none }) ∧
  (∀ (s : State) (p : Pins) (rest : List Pins), s.input = p :: rest → p.rst = false →
    p.cmdValid = false → step s = next { s with out := none, input := rest }) ∧
  (∀ (d : Byte) (s t : State), s.crPend = true → exec (.nop d) s = next t →
    exec .feedLf t = exec .feedLf s)

/-- 40_control.md (R61): CLR clears the line and NEEDS_CONT, leaves LB and ILLCMD, emits nothing, is
idempotent, and drops a held CR, so that a following LF is an ordinary character at index 0. -/
def Obligations.ClrDiscardsTheLine : Prop :=
  (∀ d : Byte, decode (0x200#10 + d.setWidth 10) = .clr d) ∧
  (∀ (d : Byte) (s : State),
    exec (.clr d) s =
      next { s with len := 0#8, crPend := false, needsCont := false, talkBad := false,
                    starSeen := false, starIdx := 0#8, xacc := 0#8, out := none }) ∧
  (∀ (d d' : Byte) (s t : State), exec (.clr d) s = next t → exec (.clr d') t = next t) ∧
  (∀ (d : Byte) (s t : State), s.lb.wf = true → exec (.clr d) s = next t →
    ∃ u, exec .feedLf t = next u ∧ u.len = 1#8 ∧ u.lb.read 0 = 0x0A#8 ∧ u.out = none)

/-- R63: RSV sets ILLCMD, which then stays 1 until hardware reset, changes nothing else and emits
nothing; the next command, an LF that completes a terminator among them, is executed normally. -/
def Obligations.RsvOnlySetsIllcmd : Prop :=
  (∀ d : Byte, decode (0x300#10 + d.setWidth 10) = .rsv d) ∧
  (∀ (d : Byte) (s : State), exec (.rsv d) s = next { s with illcmd := true, out := none }) ∧
  (∀ s t : State, s.illcmd = true → (pinsNow s).rst = false → step s = next t → t.illcmd = true) ∧
  (∀ (d : Byte) (i : Instr) (s t u v : State), exec (.rsv d) s = next t →
    exec i t = next u → exec i s = next v → u = { v with illcmd := true })

/-- R21: RSV sets ILLCMD, no other command changes it, only a reset step clears it, and no command
does anything different for it. -/
def Obligations.IllcmdIsStickyAndInert : Prop :=
  (∀ (i : Instr) (s t : State) (b : Bool), exec i s = next t →
    exec i { s with illcmd := b } =
      next { t with illcmd := if opField (encode i) = 3#2 then true else b }) ∧
  (∀ s t : State, step s = next t → s.illcmd = true → t.illcmd = false → (pinsNow s).rst = true)

/-! ## FEED -/

/-- R72: a CR is held; a CR held before it is committed. With the rule's example. -/
def Obligations.FeedCrHoldsTheCr : Prop :=
  (∀ (i : Instr) (s : State), i.char? = some 0x0D#8 →
    exec i s =
      next { heldCommitted s with crPend := true, needsCont := true, out := none }) ∧
  (∃ t, runWords [0x141, 0x10D, 0x10D] State.reset = some ([], t) ∧ t.len = 2#8 ∧
    t.lb.read 0 = 0x41#8 ∧ t.lb.read 1 = 0x0D#8 ∧ t.crPend = true ∧ t.talkBad = true ∧
    t.xacc = 0x0D#8)

/-- R74: any character but CR, and LF with no held CR, is committed, after the held CR if there is
one; no record is emitted. With the rule's example. -/
def Obligations.FeedCommitsOtherCharacters : Prop :=
  (∀ (i : Instr) (d : Byte) (s : State), i.char? = some d → d ≠ 0x0D#8 →
    ¬ (d = 0x0A#8 ∧ s.crPend = true) →
    exec i s =
      next { committed d { heldCommitted s with crPend := false } with
             needsCont := true, out := none }) ∧
  (∃ t, runWords [0x124, 0x10D, 0x147] State.reset = some ([], t) ∧ t.len = 3#8 ∧
    t.lb.read 0 = 0x24#8 ∧ t.lb.read 1 = 0x0D#8 ∧ t.lb.read 2 = 0x47#8 ∧ t.crPend = false ∧
    t.talkBad = true ∧ t.xacc = 0x4A#8)

/-- R73: LF after a held CR completes the terminator: a non-empty line is evaluated and its one record
emitted, and the line state is cleared in both cases. With the rule's example. -/
def Obligations.FeedLfCompletesTheTerminator : Prop :=
  (∀ (i : Instr) (s : State), i.char? = some 0x0A#8 → s.crPend = true → s.len ≠ 0#8 →
    ∃ r, evaluate s = .ok r ∧
      exec i s =
        next { s with len := 0#8, crPend := false, needsCont := false, talkBad := false,
                      starSeen := false, starIdx := 0#8, xacc := 0#8, out := some r }) ∧
  (∀ (i : Instr) (s : State), i.char? = some 0x0A#8 → s.crPend = true → s.len = 0#8 →
    exec i s =
      next { s with len := 0#8, crPend := false, needsCont := false, talkBad := false,
                    starSeen := false, starIdx := 0#8, xacc := 0#8, out := none }) ∧
  (∃ s t, runWords [0x124, 0x147, 0x150, 0x12A, 0x131, 0x137, 0x10D] State.reset = some ([], s) ∧
    s.len = 6#8 ∧ s.crPend = true ∧ s.xacc = 0x17#8 ∧ s.starIdx = 3#8 ∧
    runWords [0x10A] s = some ([⟨.ok, 6, false, [0x24, 0x47, 0x50, 0x2A, 0x31, 0x37], 0x2A3137, 3, 1⟩], t) ∧
    statusPort t = ⟨0, 0, 0, 0, 0, 0, 0, 0⟩)

/-- R75: an empty line is dropped: no record, no error, no flag. With the rule's example. -/
def Obligations.EmptyLinesAreDropped : Prop :=
  (∀ (i : Instr) (s : State), i.char? = some 0x0A#8 → s.crPend = true → s.len = 0#8 →
    ∃ t, exec i s = next t ∧ t.out = none ∧ t.illcmd = s.illcmd ∧ t.lb = s.lb ∧
      t.len = 0#8 ∧ t.crPend = false ∧ t.needsCont = false ∧ t.talkBad = false ∧
      t.starSeen = false ∧ t.starIdx = 0#8 ∧ t.xacc = 0#8) ∧
  runWords [0x10D, 0x10A, 0x10D, 0x10A] State.reset = some ([], State.reset)

/-- 30_encoding.md section 5: the rows FEED_CR, FEED_LF, FEED_STAR and FEED_COMMA are FEED at their
character. -/
def Obligations.SpecialRowsAreFeed : Prop :=
  ∀ s : State, exec .feedCr s = exec (.feed 0x0D) s ∧ exec .feedLf s = exec (.feed 0x0A) s ∧
    exec .feedStar s = exec (.feed 0x2A) s ∧ exec .feedComma s = exec (.feed 0x2C) s

/-- 41_feed.md section 1 (R76, which the spec derives from R70): NEEDS_CONT after a FEED is (LEN ≠ 0)
or (CR_PEND = 1) of the values just written; it is 0 after a completed terminator and 1 after every
other FEED. -/
def Obligations.NeedsContAfterFeed : Prop :=
  ∀ (i : Instr) (d : Byte) (s t : State), i.char? = some d → exec i s = next t →
    (t.needsCont = true ↔ t.len ≠ 0#8 ∨ t.crPend = true) ∧
    (t.needsCont = false ↔ d = 0x0A#8 ∧ s.crPend = true)

/-- 41_feed.md section 1 (R77, which the spec derives): the phase table, with what it says of LEN,
NEEDS_CONT and the record. -/
def Obligations.PhaseTableHolds : Prop :=
  (∀ (i : Instr) (s t : State), exec i s = next t →
    phaseOf t = phaseAfter (phaseOf s) i ∧
    t.len.toNat = min (tableLen (phaseOf s) i s.len.toNat) 255 ∧
    (t.out.isSome = true ↔ phaseOf s = .crN ∧ i.char? = some 0x0A#8)) ∧
  (∀ s : State, Inv s → (s.needsCont = true ↔ phaseOf s ≠ .empty)) ∧
  phaseOf State.reset = .empty

/-- 41_feed.md section 3 (R84, which the spec derives from R70): a step emits a record exactly when it
is a FEED of LF with CR_PEND = 1 and LEN ≠ 0; so a run has at most one record a step. -/
def Obligations.RecordsOnlyAtLineEnds : Prop :=
  (∀ s t : State, step s = next t →
    (t.out.isSome = true ↔
      (pinsNow s).rst = false ∧ (pinsNow s).char? = some 0x0A#8 ∧ s.crPend = true ∧ s.len ≠ 0#8)) ∧
  (∀ (ps : List Pins) (s t : State) (rs : List Result),
    runPins ps s = some (rs, t) → rs.length ≤ ps.length)

/-- 20_memory.md section 4 (R42): a character whose index is LINE_CAP or more is not stored, and is
counted and folded all the same; the record says `trunc` when LEN is above LINE_CAP. -/
def Obligations.UnstoredCharactersAreCounted : Prop :=
  (∀ (i : Instr) (d : Byte) (s t : State), i.char? = some d → d ≠ 0x0D#8 → s.crPend = false →
    s.cfg.lineCap ≤ s.len.toNat → exec i s = next t →
    t.lb = s.lb ∧ t.len.toNat = min (s.len.toNat + 1) 255 ∧ t.talkBad = s.talkBad ∧
    t.starSeen = (s.starSeen || d == 0x2A#8) ∧
    t.starIdx = (if s.starSeen = false ∧ d = 0x2A#8 then s.len else s.starIdx) ∧
    t.xacc = (if s.starSeen = false ∧ d ≠ 0x2A#8 then s.xacc ^^^ d else s.xacc) ∧
    t.illcmd = s.illcmd ∧ t.out = none) ∧
  (∀ (s : State) (r : Result), evaluate s = .ok r →
    (r.trunc = true ↔ s.cfg.lineCap < s.len.toNat))

/-! ## Frames -/

/-- The frame of NOP, CLR and RSV (R60, R61, R63): LB at every index, the parameter, the pins to come
and the count of reset steps stay; NOP and RSV leave every line register, NOP and CLR leave
ILLCMD. -/
def Obligations.ControlCommandsFrame : Prop :=
  ∀ (i : Instr) (s t : State), i.char? = none → exec i s = next t →
    (∀ a, t.lb.read a = s.lb.read a) ∧
    t.cfg = s.cfg ∧ t.input = s.input ∧ t.freeCount = s.freeCount ∧ t.out = none ∧
    (opField (encode i) ≠ 2#2 →
      t.len = s.len ∧ t.crPend = s.crPend ∧ t.needsCont = s.needsCont ∧ t.talkBad = s.talkBad ∧
      t.starSeen = s.starSeen ∧ t.starIdx = s.starIdx ∧ t.xacc = s.xacc) ∧
    (opField (encode i) ≠ 3#2 → t.illcmd = s.illcmd)

/-- The frame of FEED (R70, R71): ILLCMD, the parameter, the pins to come and the count of reset steps
stay, and every byte of LB outside the stored ones reads as before. The stored ones are the one that
`storeIndex` gives for the held CR, if one is committed, and the one it gives for the character in the
state in which it is appended. -/
def Obligations.FeedFrame : Prop :=
  ∀ (i : Instr) (d : Byte) (s t : State), i.char? = some d → exec i s = next t →
    t.illcmd = s.illcmd ∧ t.cfg = s.cfg ∧ t.input = s.input ∧ t.freeCount = s.freeCount ∧
    (d = 0x0A#8 → s.crPend = true → ∀ a, t.lb.read a = s.lb.read a) ∧
    (d = 0x0D#8 → s.crPend = false → ∀ a, t.lb.read a = s.lb.read a) ∧
    (d = 0x0D#8 → s.crPend = true →
      ∀ a, storeIndex s ≠ some a → t.lb.read a = s.lb.read a) ∧
    (d ≠ 0x0D#8 → s.crPend = false →
      ∀ a, storeIndex s ≠ some a → t.lb.read a = s.lb.read a) ∧
    (d ≠ 0x0D#8 → d ≠ 0x0A#8 → s.crPend = true →
      ∀ s1, append 0x0D#8 s = .ok s1 →
        ∀ a, storeIndex s ≠ some a → storeIndex s1 ≠ some a → t.lb.read a = s.lb.read a)

/-! ## Validation -/

/-- R91: the verdict of a completed line is the error of the first check that fails, in the order
talker, length, field, checksum, and OK when none fails. -/
def Obligations.FirstFailingCheckIsTheVerdict : Prop :=
  ∀ (s : State) (t : List Byte), Tracks s t → t ≠ [] →
    ∃ r, evaluate s = .ok r ∧
      (r.verdict = .badTalker ↔ ¬ CheckTalker t) ∧
      (r.verdict = .tooLong ↔ CheckTalker t ∧ ¬ CheckLength t) ∧
      (r.verdict = .missingChecksum ↔ CheckTalker t ∧ CheckLength t ∧ ¬ CheckField t) ∧
      (r.verdict = .checksumMismatch ↔
        CheckTalker t ∧ CheckLength t ∧ CheckField t ∧ ¬ CheckChecksum t) ∧
      (r.verdict = .ok ↔ CheckTalker t ∧ CheckLength t ∧ CheckField t ∧ CheckChecksum t)

/-- 42_validate.md sections 4 and 5 (R99 to R103; that the two agree is derived there): `evaluate()` over
the registers answers what the source's pure function answers on the line's text, with its parts. -/
def Obligations.EvaluateIsValidate : Prop :=
  ∀ (s : State) (t : List Byte), Tracks s t →
    ∃ r, evaluate s = .ok r ∧
      r.len.toNat = min t.length 255 ∧ r.trunc = decide (s.cfg.lineCap < t.length) ∧
      r.text = t.take s.cfg.lineCap ∧
      (∀ z, Source.validate t = .ok z →
        r.verdict = .ok ∧ z.talker = [0x24, 0x47, 0x50] ∧ r.text = z.text ∧ z.text = t ∧
        z.typeCode = [t.getD 3 0, t.getD 4 0, t.getD 5 0] ∧
        r.typeCode = t.getD 3 0 ++ t.getD 4 0 ++ t.getD 5 0 ∧
        r.star.toNat = Source.firstStar t ∧ r.star.toNat + 3 = t.length ∧
        r.nfields.toNat = z.fields.length) ∧
      (∀ e, Source.validate t = .error e →
        r.verdict = e.verdict ∧ r.typeCode = 0 ∧ r.star = 0 ∧ r.nfields = 0)

/-- 60_exceptions.md section 4 (R117): a record has verdict OK only if all four checks passed, and a
record with another verdict carries no parts of a sentence. -/
def Obligations.NoErrorIsPromoted : Prop :=
  ∀ (i : Instr) (s u : State) (t : List Byte) (r : Result), Tracks s t → exec i s = next u →
    u.out = some r →
    (r.verdict = .ok → CheckTalker t ∧ CheckLength t ∧ CheckField t ∧ CheckChecksum t) ∧
    (r.verdict ≠ .ok → r.typeCode = 0 ∧ r.star = 0 ∧ r.nfields = 0)

/-- 42_validate.md section 6 (R105 (1) and (2), derived there): the shape of a line that validates, and
when a line that passes the first three checks validates. -/
def Obligations.ValidLinesHaveTheirShape : Prop :=
  ∀ (s : State) (t : List Byte) (r : Result), Tracks s t → evaluate s = .ok r →
    (r.verdict = .ok →
      6 ≤ t.length ∧ t.length ≤ 82 ∧ FirstStarAt t (t.length - 3) ∧
      t[t.length - 2]? ≠ some 0x2A#8 ∧ t[t.length - 1]? ≠ some 0x2A#8) ∧
    (CheckTalker t → CheckLength t → CheckField t →
      (r.verdict = .ok ↔
        (Source.checksumField t).map fold = renderChecksum (Source.computedChecksum t)))

/-- 42_validate.md section 6 (R105 (3), derived there): a valid line with one character before its
checksum field changed does not validate, and with which verdict. -/
def Obligations.ChangedCharactersAreCaught : Prop :=
  ∀ (s : State) (t : List Byte) (k i : Nat) (c : Byte) (r : Result),
    Source.verdict t = .ok → FirstStarAt t k → i ≤ k → t[i]? ≠ some c →
    Tracks s (t.set i c) → evaluate s = .ok r →
    r.verdict = if i < 3 then .badTalker else if i < k then .checksumMismatch else .missingChecksum

/-- 42_validate.md section 6 (R106, derived there): a line of more than 82 characters is BadTalker or
TooLong, `text` is its first LINE_CAP characters, `len` is 255 for 255 or more. With the example. -/
def Obligations.OverlongLinesNeverValidate : Prop :=
  ∀ (s : State) (t : List Byte), Tracks s t → 82 < t.length →
    ∃ r, evaluate s = .ok r ∧ (r.verdict = .badTalker ∨ r.verdict = .tooLong) ∧
      r.text = t.take s.cfg.lineCap ∧ r.len.toNat = min t.length 255 ∧
      (r.trunc = true ↔ s.cfg.lineCap < t.length) ∧
      (s.cfg.lineCap = 82 → t.length = 310 → CheckTalker t →
        r.verdict = .tooLong ∧ r.len = 255 ∧ r.trunc = true ∧ r.text = t.take 82)

/-- 93_implementation_defined.md U5: of two instances that hold the same line, whatever their
LINE_CAP, the records have the same verdict, len, type, star and nfields. -/
def Obligations.LineCapOnlyCutsTheText : Prop :=
  ∀ (s1 s2 : State) (t : List Byte) (r1 r2 : Result), Tracks s1 t → Tracks s2 t →
    evaluate s1 = .ok r1 → evaluate s2 = .ok r2 →
    r1.verdict = r2.verdict ∧ r1.len = r2.len ∧ r1.typeCode = r2.typeCode ∧ r1.star = r2.star ∧
    r1.nfields = r2.nfields

/-- 42_validate.md sections 2 and 3 (R95, R97, R98): the digits a declared checksum can match. A folded character equals the digit of a
nibble exactly when it is that hexadecimal digit in either case; a rendering is two digits, high
nibble first. -/
def Obligations.ChecksumDigits : Prop :=
  (∀ (c : Byte) (n : BitVec 4), fold c = hexdig n ↔
    (n.toNat < 10 ∧ c.toNat = 0x30 + n.toNat) ∨
    (10 ≤ n.toNat ∧ (c.toNat = 0x57 + n.toNat ∨ c.toNat = 0x37 + n.toNat))) ∧
  renderChecksum 0x0A = [0x30, 0x61] ∧ renderChecksum 0x75 = [0x37, 0x35] ∧
  renderChecksum 0x00 = [0x30, 0x30]

/-! ## Ports -/

/-- R23: the result port after a step, signal by signal. -/
def Obligations.ResultPortSignals : Prop :=
  (∀ s t : State, step s = next t →
    ((pinsNow s).rst = true ∨ endsLine (decode (pinsNow s).word) s = false) →
    resultPort t = ⟨0, 0, 0, 0, List.replicate s.cfg.lineCap 0, 0, 0, 0⟩) ∧
  (∀ s t : State, step s = next t → (pinsNow s).rst = false →
    endsLine (decode (pinsNow s).word) s = true →
    ∃ v, verdictOf s = .ok v ∧
      (resultPort t).resValid = 1#1 ∧ (resultPort t).resVerdict = v.code ∧
      (resultPort t).resLen = s.len ∧
      ((resultPort t).resTrunc = 1#1 ↔ s.cfg.lineCap < s.len.toNat) ∧
      (resultPort t).resText.length = s.cfg.lineCap ∧
      (∀ i, i < s.cfg.lineCap → (resultPort t).resText.getD i 0 =
        if i < min s.len.toNat s.cfg.lineCap then s.lb.read i else 0) ∧
      (v = .ok →
        (resultPort t).resType = s.lb.read 3 ++ s.lb.read 4 ++ s.lb.read 5 ∧
        (resultPort t).resStar = s.starIdx ∧ s.starIdx = s.len - 3#8 ∧
        (resultPort t).resNfields.toNat =
          1 + ((List.range s.starIdx.toNat).map fun i => s.lb.read i).count 0x2C#8) ∧
      (v ≠ .ok → (resultPort t).resType = 0 ∧ (resultPort t).resStar = 0 ∧
        (resultPort t).resNfields = 0)) ∧
  ([Verdict.ok, .badTalker, .tooLong, .missingChecksum, .checksumMismatch].map Verdict.code =
    [0, 1, 2, 3, 4])

/-! ## Invariants and runs -/

/-- 10_state.md section 3 (R20, derived there): the reset state holds the empty line. LB then lists
nothing by the model's choice (log entry 5), which makes it canonical. -/
def Obligations.ResetStateKeepsTheInvariant : Prop := Inv State.reset ∧ Tracks State.reset []

/-- 10_state.md section 3 (R20, R15): every command takes a state that holds the line `t` to a state
that holds the line R61 and R72 to R74 make of it. -/
def Obligations.CommandsTrackTheLine : Prop :=
  ∀ (i : Instr) (s : State) (t : List Byte), s.lb.wf = true → Tracks s t →
    ∃ u, exec i s = next u ∧ Tracks u (lineAfter i s.crPend t)

/-- 10_state.md section 3 (R20, derived there): every step keeps the invariant, from every state that
has it. -/
def Obligations.StepKeepsTheInvariant : Prop :=
  ∀ s t : State, Inv s → step s = next t → Inv t

/-- 70_reset_and_hazards.md section 2 (R136) and 10_state.md section 3 (R20): every sequence of pins has
a run, and it ends in a state that has the invariant. -/
def Obligations.RunsNeverStop : Prop :=
  ∀ (ps : List Pins) (s : State), Inv s →
    ∃ rs t, runPins ps s = some (rs, t) ∧ Inv t ∧ t.cfg = s.cfg ∧ t.input = []

/-- 10_state.md sections 5 and 6 (R26, R28, derived there) and U2: bytes of LB at or above
min(LEN, LINE_CAP) are never observed, neither in a record nor on the status port, in any run. -/
def Obligations.StaleBytesAreNeverObserved : Prop :=
  ∀ (s : State) (m : Memory) (ps : List Pins), Inv s → m.wf = true →
    (∀ a, a < min s.len.toNat s.cfg.lineCap → m.read a = s.lb.read a) →
    ∃ rs t1 t2, runPins ps s = some (rs, t1) ∧ runPins ps { s with lb := m } = some (rs, t2) ∧
      statusPort t1 = statusPort t2 ∧ resultPort t1 = resultPort t2

/-- 10_state.md sections 5 and 6 (R26, R28, derived there) and U2, as a step: the relation `equal but for
bytes of LB at or above min(LEN, LINE_CAP)` between states of a run is kept by every step, a reset step
included, and the two steps have the same output. -/
def Obligations.StepKeepsStaleBytesStale : Prop :=
  ∀ (s : State) (m : Memory), Inv s → m.wf = true →
    (∀ a, a < min s.len.toNat s.cfg.lineCap → m.read a = s.lb.read a) →
    ∃ t n, step s = next t ∧ step { s with lb := m } = next { t with lb := n } ∧
      Inv t ∧ n.wf = true ∧
      (∀ a, a < min t.len.toNat t.cfg.lineCap → n.read a = t.lb.read a)

/-- 41_feed.md section 3 (R86, derived there) and 40_control.md (R61): the records that follow a completed
terminator or a CLR do not depend on the line before it, its verdict, or ILLCMD. -/
def Obligations.LinesAreIndependent : Prop :=
  ∀ (i j : Instr) (s1 s2 t1 t2 : State) (ps : List Pins),
    s1.lb.wf = true → s2.lb.wf = true → s1.cfg = s2.cfg →
    (opField (encode i) = 2#2 ∨ i.char? = some 0x0A#8 ∧ s1.crPend = true) →
    (opField (encode j) = 2#2 ∨ j.char? = some 0x0A#8 ∧ s2.crPend = true) →
    exec i s1 = next t1 → exec j s2 = next t2 →
    ∃ rs u1 u2, runPins ps t1 = some (rs, u1) ∧ runPins ps t2 = some (rs, u2)

/-- 41_feed.md section 3 (R82) and 40_control.md (R60): the records are a function of the characters fed
and the CLRs between them; NOPs, RSVs and the grouping into chunks do not enter. -/
def Obligations.RechunkingChangesNothing : Prop :=
  (∀ (s : State) (ps qs : List Pins),
    (∀ p ∈ ps, p.rst = false) → (∀ p ∈ qs, p.rst = false) →
    ps.filterMap Pins.lineEvent? = qs.filterMap Pins.lineEvent? →
    ∃ rs t1 t2, runPins ps s = some (rs, t1) ∧ runPins qs s = some (rs, t2)) ∧
  (∀ (s : State) (chunks : List (List Pins)),
    ∃ rss rs t1 t2, runEach chunks s = some (rss, t1) ∧ runPins chunks.flatten s = some (rs, t2) ∧
      rss.flatten = rs)

/-- 41_feed.md section 3 (R82) and 40_control.md (R60, R63), as a step: two states equal but for ILLCMD,
the pins to come and the port, whose steps have the same line event (a character fed, a CLR, or none),
step to states equal but for ILLCMD and the pins to come, with the same output; and a step with no line
event leaves its state equal but for these and emits nothing. -/
def Obligations.SameLineEventKeepsStatesEqual : Prop :=
  (∀ s1 s2 : State, (pinsNow s1).rst = false → (pinsNow s2).rst = false →
    (pinsNow s1).lineEvent? = (pinsNow s2).lineEvent? →
    s2 = { s1 with illcmd := s2.illcmd, input := s2.input, out := s2.out } →
    ∃ t1 t2, step s1 = next t1 ∧ step s2 = next t2 ∧
      t2 = { t1 with illcmd := t2.illcmd, input := t2.input }) ∧
  (∀ s : State, (pinsNow s).rst = false → (pinsNow s).lineEvent? = none →
    ∃ t, step s = next t ∧
      t = { s with illcmd := t.illcmd, input := s.input.tail, out := none })

/-- 41_feed.md sections 2 and 3 (R78, R80; derived there), as a step: one FEED or idle step takes a state
whose pending buffer is `buf` to one whose pending buffer is the one `feed_chunk` makes of `buf` and
the character fed, if any, and emits a record for each string `feed_chunk` emits. -/
def Obligations.FeedStepKeepsTheSourcesBuffer : Prop :=
  ∀ (s : State) (line : List Byte), s.lb.wf = true → Tracks s line → NoTerminator s line →
    (pinsNow s).feedsOrIdles = true →
    ∃ t line', step s = next t ∧ t.cfg = s.cfg ∧ t.lb.wf = true ∧
      Tracks t line' ∧ NoTerminator t line' ∧
      pending t line' = (Source.feedChunk (pending s line) (pinsNow s).char?.toList).1 ∧
      (t.out.toList.map fun r => (r.text, r.len.toNat, r.trunc)) =
        (Source.feedChunk (pending s line) (pinsNow s).char?.toList).2.map fun e =>
          (e.take s.cfg.lineCap, min e.length 255, decide (s.cfg.lineCap < e.length))

/-- 41_feed.md sections 2 and 3 (R78 and R80; the equivalence is derived there): after a CLR, chunks fed
one character a step, with idle steps anywhere, give record for record the strings that the source's
`feed_chunk` emits, cut to LINE_CAP, and leave its buffer pending. -/
def Obligations.ReassemblyIsTheSourcesAlgorithm : Prop :=
  ∀ (d : Byte) (s0 s : State) (chunks : List (List Pins)), s0.lb.wf = true →
    exec (.clr d) s0 = next s → (∀ ps ∈ chunks, ∀ p ∈ ps, p.feedsOrIdles = true) →
    ∃ rss t line, runEach chunks s = some (rss, t) ∧
      (rss.map fun rs => rs.map fun r => (r.text, r.len.toNat, r.trunc)) =
        ((Source.feedChunks [] (chunks.map charsOf)).2.map fun es => es.map fun e =>
          (e.take s0.cfg.lineCap, min e.length 255, decide (s0.cfg.lineCap < e.length))) ∧
      Tracks t line ∧ pending t line = (Source.feedChunks [] (chunks.map charsOf)).1 ∧
      (t.needsCont = true ↔ (Source.feedChunks [] (chunks.map charsOf)).1 ≠ [])
end

