-- ==== Sys2Proof/Laws/Memory.lean ====
section
/-! SUPPORT. The laws of the line buffer: reading after writing, and that every operation keeps the
canonical form and stays inside the address space. -/

namespace Sys2Proof.Machine

@[simp] theorem Memory.read_nil (i : Nat) : Memory.read [] i = Memory.unlisted := rfl

theorem Memory.read_cons (a : Nat) (v : Byte) (m : Memory) (i : Nat) :
    Memory.read ((a, v) :: m) i = if a = i then v else Memory.read m i := rfl

theorem Memory.wfAbove_cons (lo : Option Nat) (a : Nat) (v : Byte) (m : Memory) :
    Memory.wfAbove lo ((a, v) :: m) = true ↔
      (∀ l, lo = some l → l < a) ∧ v ≠ Memory.unlisted ∧ Memory.wfAbove (some a) m = true := by
  cases lo <;> simp [Memory.wfAbove, and_assoc]

/-- Cells above a bound are cells above any lower bound. -/
theorem Memory.wfAbove_mono {m : Memory} {lo : Option Nat} {k : Nat}
    (h : Memory.wfAbove (some k) m = true) (hlo : ∀ l, lo = some l → l ≤ k) :
    Memory.wfAbove lo m = true := by
  cases m with
  | nil => rfl
  | cons c m =>
    obtain ⟨a, v⟩ := c
    rw [Memory.wfAbove_cons] at h ⊢
    exact ⟨fun l hl => Nat.lt_of_le_of_lt (hlo l hl) (h.1 k rfl), h.2⟩

/-- An index at or below the bound of the cells is not listed. -/
theorem Memory.read_below {m : Memory} {k i : Nat} (h : Memory.wfAbove (some k) m = true)
    (hi : i ≤ k) : m.read i = Memory.unlisted := by
  induction m generalizing k with
  | nil => rfl
  | cons c m ih =>
    obtain ⟨a, v⟩ := c
    rw [Memory.wfAbove_cons] at h
    have hka := h.1 k rfl
    rw [Memory.read_cons, if_neg (by omega)]
    exact ih h.2.2 (by omega)

/-- Reading an index just written gives the byte written, and every other index is left alone. -/
theorem Memory.read_write_above {m : Memory} {lo : Option Nat} (h : Memory.wfAbove lo m = true)
    (i : Nat) (v : Byte) (j : Nat) :
    (m.write i v).read j = if j = i then v else m.read j := by
  induction m generalizing lo with
  | nil =>
    by_cases hv : v = Memory.unlisted <;> by_cases hj : j = i
    · simp [Memory.write, hv, hj]
    · simp [Memory.write, hv, hj]
    · simp [Memory.write, hv, hj, Memory.read_cons]
    · simp [Memory.write, hv, hj, Memory.read_cons, Ne.symm hj]
  | cons c m ih =>
    obtain ⟨a, b⟩ := c
    rw [Memory.wfAbove_cons] at h
    obtain ⟨_, _, hm⟩ := h
    have low : ∀ k, k ≤ a → Memory.read m k = Memory.unlisted := fun k hk => Memory.read_below hm hk
    unfold Memory.write
    split
    · rename_i hai
      rw [Memory.read_cons, Memory.read_cons, ih hm]
      split
      · rw [if_neg (by omega)]
      · rfl
    · rename_i hai
      split
      · rename_i he
        subst he
        split
        · rename_i hv
          by_cases hj : j = a
          · simp [hj, hv, low a (Nat.le_refl a)]
          · simp [hj, Memory.read_cons, Ne.symm hj]
        · by_cases hj : j = a
          · simp [hj, Memory.read_cons]
          · simp [hj, Memory.read_cons, Ne.symm hj]
      · rename_i hne
        split
        · rename_i hv
          by_cases hj : j = i
          · subst hj
            simp [Memory.read_cons, hne, hv, low j (by omega)]
          · simp [hj]
        · by_cases hj : j = i
          · simp [hj, Memory.read_cons]
          · simp [hj, Memory.read_cons, Ne.symm hj]

theorem Memory.read_write {m : Memory} (h : m.wf = true) (i : Nat) (v : Byte) (j : Nat) :
    (m.write i v).read j = if j = i then v else m.read j := Memory.read_write_above h i v j

theorem Memory.read_write_same {m : Memory} (h : m.wf = true) (i : Nat) (v : Byte) :
    (m.write i v).read i = v := by simp [Memory.read_write h]

/-- A write leaves every other index alone, whatever the form of the buffer. -/
theorem Memory.read_write_other (m : Memory) {i j : Nat} (v : Byte) (hj : j ≠ i) :
    (m.write i v).read j = m.read j := by
  induction m with
  | nil =>
    by_cases hv : v = Memory.unlisted <;> simp [Memory.write, hv, Memory.read_cons, Ne.symm hj]
  | cons c m ih =>
    obtain ⟨a, b⟩ := c
    unfold Memory.write
    split
    · rw [Memory.read_cons, Memory.read_cons, ih]
    · split
      · rename_i he
        subst he
        split <;> simp [Memory.read_cons, Ne.symm hj]
      · split <;> simp [Memory.read_cons, Ne.symm hj]

theorem Memory.write_wfAbove {m : Memory} {lo : Option Nat} (h : Memory.wfAbove lo m = true)
    {i : Nat} (hi : ∀ l, lo = some l → l < i) (v : Byte) :
    Memory.wfAbove lo (m.write i v) = true := by
  induction m generalizing lo with
  | nil =>
    unfold Memory.write
    split
    · rfl
    · exact (Memory.wfAbove_cons ..).2 ⟨hi, by assumption, rfl⟩
  | cons c m ih =>
    obtain ⟨a, b⟩ := c
    rw [Memory.wfAbove_cons] at h
    obtain ⟨ha, hb, hm⟩ := h
    unfold Memory.write
    split
    · rename_i hai
      exact (Memory.wfAbove_cons ..).2
        ⟨ha, hb, ih hm (fun l hl => by cases hl; exact hai)⟩
    · split
      · split
        · exact Memory.wfAbove_mono hm fun l hl => Nat.le_of_lt (ha l hl)
        · rename_i he hv
          subst he
          exact (Memory.wfAbove_cons ..).2 ⟨hi, hv, hm⟩
      · rename_i hai hne
        split
        · exact (Memory.wfAbove_cons ..).2 ⟨ha, hb, hm⟩
        · rename_i hv
          refine (Memory.wfAbove_cons ..).2 ⟨hi, hv, (Memory.wfAbove_cons ..).2 ⟨?_, hb, hm⟩⟩
          intro l hl
          cases hl
          omega

/-- Writing keeps the canonical form. -/
theorem Memory.write_wf {m : Memory} (h : m.wf = true) (i : Nat) (v : Byte) :
    (m.write i v).wf = true := Memory.write_wfAbove h (by simp) v

theorem Memory.within_cons (cap a : Nat) (v : Byte) (m : Memory) :
    Memory.within cap ((a, v) :: m) = true ↔ a < cap ∧ Memory.within cap m = true := by
  simp [Memory.within]

/-- Writing a location of LB keeps every cell inside LB. -/
theorem Memory.write_within {m : Memory} {cap : Nat} (h : m.within cap = true) {i : Nat}
    (hi : i < cap) (v : Byte) : (m.write i v).within cap = true := by
  induction m with
  | nil =>
    unfold Memory.write
    split
    · rfl
    · exact (Memory.within_cons ..).2 ⟨hi, rfl⟩
  | cons c m ih =>
    obtain ⟨a, b⟩ := c
    obtain ⟨ha, hm⟩ := (Memory.within_cons ..).1 h
    unfold Memory.write
    split
    · exact (Memory.within_cons ..).2 ⟨ha, ih hm⟩
    · split
      · split
        · exact hm
        · exact (Memory.within_cons ..).2 ⟨hi, hm⟩
      · split
        · exact h
        · exact (Memory.within_cons ..).2 ⟨hi, h⟩

/-- Canonical buffers that read the same at every index are the same list. -/
theorem Memory.eq_of_read_eq {m n : Memory} (hm : m.wf = true) (hn : n.wf = true)
    (h : ∀ i, m.read i = n.read i) : m = n := by
  have key : ∀ (m n : Memory) (lo : Option Nat), Memory.wfAbove lo m = true →
      Memory.wfAbove lo n = true → (∀ i, m.read i = n.read i) → m = n := by
    intro m
    induction m with
    | nil =>
      intro n lo _ hn h
      cases n with
      | nil => rfl
      | cons c n =>
        obtain ⟨a, v⟩ := c
        have := h a
        rw [Memory.wfAbove_cons] at hn
        simp [Memory.read_cons] at this
        exact absurd this.symm hn.2.1
    | cons c m ih =>
      obtain ⟨a, v⟩ := c
      intro n lo hm hn h
      rw [Memory.wfAbove_cons] at hm
      cases n with
      | nil =>
        have := h a
        simp [Memory.read_cons] at this
        exact absurd this hm.2.1
      | cons d n =>
        obtain ⟨b, w⟩ := d
        rw [Memory.wfAbove_cons] at hn
        rcases Nat.lt_trichotomy a b with hab | hab | hab
        · have := h a
          rw [Memory.read_cons, Memory.read_cons, if_pos rfl, if_neg (by omega),
            Memory.read_below hn.2.2 (by omega)] at this
          exact absurd this hm.2.1
        · subst hab
          have hv := h a
          simp only [Memory.read_cons, if_true] at hv
          subst hv
          congr 1
          refine ih n (some a) hm.2.2 hn.2.2 fun i => ?_
          have hi := h i
          rw [Memory.read_cons, Memory.read_cons] at hi
          split at hi
          · rename_i he
            subst he
            rw [Memory.read_below hm.2.2 (Nat.le_refl _), Memory.read_below hn.2.2 (Nat.le_refl _)]
          · exact hi
        · have := h b
          rw [Memory.read_cons, Memory.read_cons, if_pos rfl, if_neg (by omega),
            Memory.read_below hm.2.2 (by omega)] at this
          exact absurd this.symm hn.2.1
  exact key m n none hm hn h

/-- The free bytes of a reset step are a canonical buffer inside LB. -/
theorem freeLb_wf (epoch n : Nat) : (freeLb epoch n).wf = true := by
  induction n with
  | zero => rfl
  | succ n ih => exact Memory.write_wf ih n _

theorem freeLb_within (epoch n : Nat) : (freeLb epoch n).within n = true := by
  have key : ∀ k, k ≤ n → (freeLb epoch k).within n = true := by
    intro k
    induction k with
    | zero => intro _; rfl
    | succ k ih => intro hk; exact Memory.write_within (ih (by omega)) (by omega) _
  exact key n (Nat.le_refl n)

/-- Below LINE_CAP, LB holds the free byte of its index after a reset step. -/
theorem freeLb_read (epoch : Nat) {n i : Nat} (hi : i < n) :
    (freeLb epoch n).read i = Config.freeByte epoch i := by
  induction n with
  | zero => omega
  | succ n ih =>
    rw [freeLb, Memory.read_write (freeLb_wf epoch n)]
    split
    · rename_i h; rw [h]
    · exact ih (by omega)

end Sys2Proof.Machine
end

