-- ==== Sys2Proof/Laws/State.lean ====
section
/-! SUPPORT. One lemma for each field and each named update of the state, true by `rfl`, so that no
proof unfolds a record update. -/

namespace Sys2Proof.Machine

/-! ## emit -/

@[simp] theorem emit_cfg (r : Option Result) (s : State) : (emit r s).cfg = s.cfg := rfl
@[simp] theorem emit_lb (r : Option Result) (s : State) : (emit r s).lb = s.lb := rfl
@[simp] theorem emit_len (r : Option Result) (s : State) : (emit r s).len = s.len := rfl
@[simp] theorem emit_crPend (r : Option Result) (s : State) : (emit r s).crPend = s.crPend := rfl
@[simp] theorem emit_needsCont (r : Option Result) (s : State) : (emit r s).needsCont = s.needsCont := rfl
@[simp] theorem emit_talkBad (r : Option Result) (s : State) : (emit r s).talkBad = s.talkBad := rfl
@[simp] theorem emit_starSeen (r : Option Result) (s : State) : (emit r s).starSeen = s.starSeen := rfl
@[simp] theorem emit_starIdx (r : Option Result) (s : State) : (emit r s).starIdx = s.starIdx := rfl
@[simp] theorem emit_xacc (r : Option Result) (s : State) : (emit r s).xacc = s.xacc := rfl
@[simp] theorem emit_illcmd (r : Option Result) (s : State) : (emit r s).illcmd = s.illcmd := rfl
@[simp] theorem emit_input (r : Option Result) (s : State) : (emit r s).input = s.input := rfl
@[simp] theorem emit_out (r : Option Result) (s : State) : (emit r s).out = r := rfl
@[simp] theorem emit_freeCount (r : Option Result) (s : State) : (emit r s).freeCount = s.freeCount := rfl

/-! ## clearLine -/

@[simp] theorem clearLine_cfg (s : State) : (clearLine s).cfg = s.cfg := rfl
@[simp] theorem clearLine_lb (s : State) : (clearLine s).lb = s.lb := rfl
@[simp] theorem clearLine_len (s : State) : (clearLine s).len = 0#8 := rfl
@[simp] theorem clearLine_crPend (s : State) : (clearLine s).crPend = false := rfl
@[simp] theorem clearLine_needsCont (s : State) : (clearLine s).needsCont = s.needsCont := rfl
@[simp] theorem clearLine_talkBad (s : State) : (clearLine s).talkBad = false := rfl
@[simp] theorem clearLine_starSeen (s : State) : (clearLine s).starSeen = false := rfl
@[simp] theorem clearLine_starIdx (s : State) : (clearLine s).starIdx = 0#8 := rfl
@[simp] theorem clearLine_xacc (s : State) : (clearLine s).xacc = 0#8 := rfl
@[simp] theorem clearLine_illcmd (s : State) : (clearLine s).illcmd = s.illcmd := rfl
@[simp] theorem clearLine_input (s : State) : (clearLine s).input = s.input := rfl
@[simp] theorem clearLine_out (s : State) : (clearLine s).out = s.out := rfl
@[simp] theorem clearLine_freeCount (s : State) : (clearLine s).freeCount = s.freeCount := rfl

/-! ## updateNeedsCont -/

@[simp] theorem updateNeedsCont_cfg (s : State) : (updateNeedsCont s).cfg = s.cfg := rfl
@[simp] theorem updateNeedsCont_lb (s : State) : (updateNeedsCont s).lb = s.lb := rfl
@[simp] theorem updateNeedsCont_len (s : State) : (updateNeedsCont s).len = s.len := rfl
@[simp] theorem updateNeedsCont_crPend (s : State) : (updateNeedsCont s).crPend = s.crPend := rfl
@[simp] theorem updateNeedsCont_needsCont (s : State) : (updateNeedsCont s).needsCont = needsContOf s.len s.crPend := rfl
@[simp] theorem updateNeedsCont_talkBad (s : State) : (updateNeedsCont s).talkBad = s.talkBad := rfl
@[simp] theorem updateNeedsCont_starSeen (s : State) : (updateNeedsCont s).starSeen = s.starSeen := rfl
@[simp] theorem updateNeedsCont_starIdx (s : State) : (updateNeedsCont s).starIdx = s.starIdx := rfl
@[simp] theorem updateNeedsCont_xacc (s : State) : (updateNeedsCont s).xacc = s.xacc := rfl
@[simp] theorem updateNeedsCont_illcmd (s : State) : (updateNeedsCont s).illcmd = s.illcmd := rfl
@[simp] theorem updateNeedsCont_input (s : State) : (updateNeedsCont s).input = s.input := rfl
@[simp] theorem updateNeedsCont_out (s : State) : (updateNeedsCont s).out = s.out := rfl
@[simp] theorem updateNeedsCont_freeCount (s : State) : (updateNeedsCont s).freeCount = s.freeCount := rfl

/-! ## raiseIllegalCommand -/

@[simp] theorem raiseIllegalCommand_cfg (s : State) : (raiseIllegalCommand s).cfg = s.cfg := rfl
@[simp] theorem raiseIllegalCommand_lb (s : State) : (raiseIllegalCommand s).lb = s.lb := rfl
@[simp] theorem raiseIllegalCommand_len (s : State) : (raiseIllegalCommand s).len = s.len := rfl
@[simp] theorem raiseIllegalCommand_crPend (s : State) : (raiseIllegalCommand s).crPend = s.crPend := rfl
@[simp] theorem raiseIllegalCommand_needsCont (s : State) : (raiseIllegalCommand s).needsCont = s.needsCont := rfl
@[simp] theorem raiseIllegalCommand_talkBad (s : State) : (raiseIllegalCommand s).talkBad = s.talkBad := rfl
@[simp] theorem raiseIllegalCommand_starSeen (s : State) : (raiseIllegalCommand s).starSeen = s.starSeen := rfl
@[simp] theorem raiseIllegalCommand_starIdx (s : State) : (raiseIllegalCommand s).starIdx = s.starIdx := rfl
@[simp] theorem raiseIllegalCommand_xacc (s : State) : (raiseIllegalCommand s).xacc = s.xacc := rfl
@[simp] theorem raiseIllegalCommand_illcmd (s : State) : (raiseIllegalCommand s).illcmd = true := rfl
@[simp] theorem raiseIllegalCommand_input (s : State) : (raiseIllegalCommand s).input = s.input := rfl
@[simp] theorem raiseIllegalCommand_out (s : State) : (raiseIllegalCommand s).out = s.out := rfl
@[simp] theorem raiseIllegalCommand_freeCount (s : State) : (raiseIllegalCommand s).freeCount = s.freeCount := rfl

/-! ## commitRegs -/

@[simp] theorem commitRegs_cfg (c : Byte) (s : State) : (commitRegs c s).cfg = s.cfg := rfl
@[simp] theorem commitRegs_lb (c : Byte) (s : State) : (commitRegs c s).lb = s.lb := rfl
@[simp] theorem commitRegs_len (c : Byte) (s : State) : (commitRegs c s).len = satInc s.len := rfl
@[simp] theorem commitRegs_crPend (c : Byte) (s : State) : (commitRegs c s).crPend = s.crPend := rfl
@[simp] theorem commitRegs_needsCont (c : Byte) (s : State) : (commitRegs c s).needsCont = s.needsCont := rfl
@[simp] theorem commitRegs_talkBad (c : Byte) (s : State) : (commitRegs c s).talkBad = talkBadAfter s c := rfl
@[simp] theorem commitRegs_starSeen (c : Byte) (s : State) : (commitRegs c s).starSeen = starSeenAfter s c := rfl
@[simp] theorem commitRegs_starIdx (c : Byte) (s : State) : (commitRegs c s).starIdx = starIdxAfter s c := rfl
@[simp] theorem commitRegs_xacc (c : Byte) (s : State) : (commitRegs c s).xacc = xaccAfter s c := rfl
@[simp] theorem commitRegs_illcmd (c : Byte) (s : State) : (commitRegs c s).illcmd = s.illcmd := rfl
@[simp] theorem commitRegs_input (c : Byte) (s : State) : (commitRegs c s).input = s.input := rfl
@[simp] theorem commitRegs_out (c : Byte) (s : State) : (commitRegs c s).out = s.out := rfl
@[simp] theorem commitRegs_freeCount (c : Byte) (s : State) : (commitRegs c s).freeCount = s.freeCount := rfl

/-! ## hardReset -/

@[simp] theorem hardReset_cfg (s : State) : (hardReset s).cfg = s.cfg := rfl
@[simp] theorem hardReset_lb (s : State) : (hardReset s).lb = freeLb s.freeCount s.cfg.lineCap := rfl
@[simp] theorem hardReset_len (s : State) : (hardReset s).len = 0#8 := rfl
@[simp] theorem hardReset_crPend (s : State) : (hardReset s).crPend = false := rfl
@[simp] theorem hardReset_needsCont (s : State) : (hardReset s).needsCont = false := rfl
@[simp] theorem hardReset_talkBad (s : State) : (hardReset s).talkBad = false := rfl
@[simp] theorem hardReset_starSeen (s : State) : (hardReset s).starSeen = false := rfl
@[simp] theorem hardReset_starIdx (s : State) : (hardReset s).starIdx = 0#8 := rfl
@[simp] theorem hardReset_xacc (s : State) : (hardReset s).xacc = 0#8 := rfl
@[simp] theorem hardReset_illcmd (s : State) : (hardReset s).illcmd = false := rfl
@[simp] theorem hardReset_input (s : State) : (hardReset s).input = s.input := rfl
@[simp] theorem hardReset_out (s : State) : (hardReset s).out = none := rfl
@[simp] theorem hardReset_freeCount (s : State) : (hardReset s).freeCount = s.freeCount + 1 := rfl

/-! ## takePins -/

@[simp] theorem takePins_cfg (s : State) : (takePins s).cfg = s.cfg := rfl
@[simp] theorem takePins_lb (s : State) : (takePins s).lb = s.lb := rfl
@[simp] theorem takePins_len (s : State) : (takePins s).len = s.len := rfl
@[simp] theorem takePins_crPend (s : State) : (takePins s).crPend = s.crPend := rfl
@[simp] theorem takePins_needsCont (s : State) : (takePins s).needsCont = s.needsCont := rfl
@[simp] theorem takePins_talkBad (s : State) : (takePins s).talkBad = s.talkBad := rfl
@[simp] theorem takePins_starSeen (s : State) : (takePins s).starSeen = s.starSeen := rfl
@[simp] theorem takePins_starIdx (s : State) : (takePins s).starIdx = s.starIdx := rfl
@[simp] theorem takePins_xacc (s : State) : (takePins s).xacc = s.xacc := rfl
@[simp] theorem takePins_illcmd (s : State) : (takePins s).illcmd = s.illcmd := rfl
@[simp] theorem takePins_input (s : State) : (takePins s).input = s.input.tail := rfl
@[simp] theorem takePins_out (s : State) : (takePins s).out = s.out := rfl
@[simp] theorem takePins_freeCount (s : State) : (takePins s).freeCount = s.freeCount := rfl

end Sys2Proof.Machine
end

