-- ==== Sys2Proof/Laws/Ops.lean ====
section
/-! SUPPORT. What each shared operation answers, said once: an access inside LB succeeds, a commit is
`committed`, an evaluation is `recordOf`, a FEED is `fed`. Proofs cite these and unfold none of the
operations. -/

namespace Sys2Proof.Machine

@[simp] theorem except_bind_ok {α β : Type} (a : α) (f : α → Except Fault β) :
    (Except.ok a >>= f) = f a := rfl

/-! ## Accesses (R30, R32) -/

theorem memRead_ok {s : State} {i : Nat} (h : i < s.cfg.lineCap) :
    memRead s i = .ok (s.lb.read i) := by simp [memRead, h]

theorem memReadRange_ok {s : State} {i n : Nat} (h : i + n ≤ s.cfg.lineCap) :
    memReadRange s i n = .ok ((List.range' i n).map fun j => s.lb.read j) := by
  induction n generalizing i with
  | zero => rfl
  | succ n ih =>
    rw [memReadRange, memRead_ok (by omega), except_bind_ok, ih (by omega)]
    rfl

theorem memReadRange_zero_ok {s : State} {n : Nat} (h : n ≤ s.cfg.lineCap) :
    memReadRange s 0 n = .ok ((List.range n).map fun j => s.lb.read j) := by
  rw [memReadRange_ok (by omega), List.range_eq_range']

/-! ## Committing (R71) -/

theorem storeChar_ok (c : Byte) (s : State) :
    storeChar c s =
      .ok { s with lb := if s.len.toNat < s.cfg.lineCap then s.lb.write s.len.toNat c else s.lb } := by
  by_cases h : s.len.toNat < s.cfg.lineCap <;> simp [storeChar, storeIndex, memWrite, h]

theorem append_ok (c : Byte) (s : State) : append c s = .ok (committed c s) := by
  rw [append, storeChar_ok, except_bind_ok]
  congr 1
  simp only [commitRegs, committed, State.mk.injEq, true_and, and_true]
  refine ⟨rfl, rfl, ?_, ?_, ?_⟩
  · cases s.starSeen <;> simp [starSeenAfter, firstStarNow]
  · cases s.starSeen <;> simp [starIdxAfter, firstStarNow]
  · cases s.starSeen <;> simp [xaccAfter, xor8]

theorem appendHeldCr_ok (s : State) : appendHeldCr s = .ok (heldCommitted s) := by
  cases h : s.crPend <;> simp [appendHeldCr, heldCommitted, h, append_ok]

/-! ## Evaluating (R100) -/

/-- The two characters of the checksum field are, up to case, the digits of XACC (R95). -/
def fieldMatches (s : State) : Bool :=
  fieldLength s == 2#8 &&
    (fold (s.lb.read (s.starIdx + 1#8).toNat) == hexdig (hiNibble s.xacc)) &&
    (fold (s.lb.read (s.starIdx + 2#8).toNat) == hexdig (loNibble s.xacc))

/-- The verdict of the line (R91, R100), without the accesses' own guards. -/
def verdictIs (s : State) : Verdict :=
  if s.talkBad ∨ s.len < 3#8 then .badTalker
  else if 82#8 < s.len then .tooLong
  else if ¬ s.starSeen ∨ s.starIdx = s.len - 1#8 then .missingChecksum
  else if fieldMatches s then .ok else .checksumMismatch

/-- The text of a record: the stored characters of the line (R23). -/
def textOf (s : State) : List Byte := (List.range (storedCount s)).map fun i => s.lb.read i

/-- The record of the line (R100). -/
def recordOf (s : State) : Result where
  verdict := verdictIs s
  len := s.len
  trunc := decide (s.cfg.lineCap < s.len.toNat)
  text := textOf s
  typeCode := if verdictIs s = .ok then packType (s.lb.read 3) (s.lb.read 4) (s.lb.read 5) else 0
  star := if verdictIs s = .ok then s.starIdx else 0
  nfields :=
    if verdictIs s = .ok then
      BitVec.ofNat 7
        (1 + ((List.range s.starIdx.toNat).map fun i => s.lb.read i).count Config.comma)
    else 0

/-- Where the checksum field has two characters and the line passed the length checks, the field
ends the line (R105): the two indices read are LEN - 2 and LEN - 1. -/
theorem field_indices {s : State} (h3 : ¬ s.len < 3#8) (h82 : ¬ 82#8 < s.len)
    (hf : fieldLength s = 2#8) :
    s.starIdx.toNat + 3 = s.len.toNat ∧ s.len.toNat ≤ 82 ∧
      (s.starIdx + 1#8).toNat = s.starIdx.toNat + 1 ∧
      (s.starIdx + 2#8).toNat = s.starIdx.toNat + 2 := by
  have h := congrArg BitVec.toNat hf
  rw [fieldLength] at h
  rw [BitVec.lt_def] at h3 h82
  simp only [BitVec.toNat_sub, BitVec.toNat_add, BitVec.toNat_ofNat] at *
  have := s.len.isLt
  have := s.starIdx.isLt
  omega

theorem checksumMatches_ok {s : State} (h3 : ¬ s.len < 3#8) (h82 : ¬ 82#8 < s.len) :
    checksumMatches s = .ok (fieldMatches s) := by
  by_cases hf : fieldLength s = 2#8
  · obtain ⟨h1, h2, h4, h5⟩ := field_indices h3 h82 hf
    have hcap := s.cfg.lineCap_ge
    rw [checksumMatches, if_neg (by simp [hf]), memRead_ok (by omega), except_bind_ok,
      memRead_ok (by omega), except_bind_ok, fieldMatches, hf]
    split
    · rename_i h; rw [beq_eq_false_iff_ne.2 h]; rfl
    · rename_i h; rw [beq_iff_eq.2 (not_not.1 h)]; rfl
  · rw [checksumMatches, if_pos hf, fieldMatches, beq_eq_false_iff_ne.2 hf]; rfl

theorem verdictOf_ok (s : State) : verdictOf s = .ok (verdictIs s) := by
  unfold verdictOf verdictIs
  split
  · rfl
  · rename_i h
    split
    · rfl
    · rename_i h82
      split
      · rfl
      · rw [checksumMatches_ok (fun h3 => h (.inr h3)) h82]
        cases fieldMatches s <;> rfl

/-- What an OK verdict says of the registers (R100). -/
theorem verdictIs_ok_iff (s : State) :
    verdictIs s = .ok ↔
      s.talkBad = false ∧ ¬ s.len < 3#8 ∧ ¬ 82#8 < s.len ∧ s.starSeen = true ∧
        s.starIdx ≠ s.len - 1#8 ∧ fieldMatches s = true := by
  unfold verdictIs
  split
  · rename_i h; rcases h with h | h <;> simp [h, -BitVec.not_lt]
  · rename_i h
    rw [not_or] at h
    split
    · rename_i h82; simp [h82, -BitVec.not_lt]
    · rename_i h82
      split
      · rename_i hs; rcases hs with hs | hs <;> simp [hs]
      · rename_i hs
        rw [not_or] at hs
        split
        · rename_i hf; simp_all
        · rename_i hf; simp [hf]

/-- Of an OK line, the `*` stands at LEN - 3 and LEN is at most 82 (R105). -/
theorem ok_bounds {s : State} (h : verdictIs s = .ok) :
    s.starIdx.toNat + 3 = s.len.toNat ∧ s.len.toNat ≤ 82 := by
  obtain ⟨_, h3, h82, _, _, hf⟩ := (verdictIs_ok_iff s).1 h
  have hf2 : fieldLength s = 2#8 := by
    simp only [fieldMatches, Bool.and_eq_true, beq_iff_eq] at hf
    exact hf.1.1
  obtain ⟨a, b, _, _⟩ := field_indices h3 h82 hf2
  exact ⟨a, b⟩

/-- `evaluate()` succeeds in every state and answers the record of the line. -/
theorem evaluate_ok (s : State) : evaluate s = .ok (recordOf s) := by
  have hcap := s.cfg.lineCap_ge
  rw [evaluate, verdictOf_ok, except_bind_ok,
    memReadRange_zero_ok (n := storedCount s) (Nat.min_le_right _ _), except_bind_ok, recordParts]
  by_cases hv : verdictIs s = .ok
  · obtain ⟨_, _⟩ := ok_bounds hv
    rw [if_pos hv, readType, memRead_ok (by omega), memRead_ok (by omega), memRead_ok (by omega),
      countFields, memReadRange_zero_ok (by omega)]
    simp [recordOf, textOf, hv]
  · simp [recordOf, textOf, hv]

/-! ## Feeding (R70) -/

/-- The state after the case of FEED that the character and CR_PEND select. -/
def fedCase (d : Byte) (s : State) : State :=
  if d = Config.cr then { heldCommitted s with crPend := true }
  else if d = Config.lf ∧ s.crPend = true then
    (if s.len ≠ 0#8 then clearLine (emit (some (recordOf s)) s) else clearLine s)
  else committed d { heldCommitted s with crPend := false }

/-- The state after `FEED d`. -/
def fed (d : Byte) (s : State) : State := updateNeedsCont (fedCase d (emit none s))

theorem feedCase_ok (d : Byte) (s : State) : feedCase d s = .ok (fedCase d s) := by
  unfold feedCase fedCase
  split
  · rw [holdCr, appendHeldCr_ok, except_bind_ok]
  · split
    · rw [completeLine]
      split
      · rw [evaluate_ok, except_bind_ok]
      · rfl
    · rw [commitChar, appendHeldCr_ok, except_bind_ok, append_ok]

/-- FEED never stops: it answers `fed`, for every character in every state (R70). -/
theorem feedChar_ok (d : Byte) (s : State) : feedChar d s = .ok (fed d s) := by
  rw [feedChar, feedCase_ok, except_bind_ok]
  rfl

/-- The state after a command. -/
def after (i : Instr) (s : State) : State :=
  match i with
  | .nop _ => emit none s
  | .clr _ => emit none { clearLine s with needsCont := false }
  | .rsv _ => emit none (raiseIllegalCommand s)
  | .feed d => fed d s
  | .feedCr => fed Config.cr s
  | .feedLf => fed Config.lf s
  | .feedStar => fed Config.star s
  | .feedComma => fed Config.comma s

theorem exec_eq_after (i : Instr) (s : State) : exec i s = .next (after i s) := by
  cases i <;>
    simp only [exec, after, execNop, execClr, execRsv, execFeed, execFeedCr, execFeedLf,
      execFeedStar, execFeedComma, feedChar_ok, finish]

/-- A FEED of any row is `fed` of its character. -/
theorem after_feed {i : Instr} {d : Byte} (h : i.char? = some d) (s : State) :
    after i s = fed d s := by
  cases i <;> simp_all [Instr.char?, after]

/-- The state after one step. -/
def stepped (s : State) : State :=
  if (pinsNow s).rst then hardReset (takePins s) else after (decode (pinsNow s).word) (takePins s)

theorem step_eq_stepped (s : State) : step s = .next (stepped s) := by
  unfold step stepped
  split
  · rfl
  · exact exec_eq_after ..

end Sys2Proof.Machine
end

