-- ==== Sys2Proof/Laws/Line.lean ====
section
/-! SUPPORT. How a commit changes the line a state holds (rule R20), and how runs compose
(rule R136). -/

namespace Sys2Proof.Machine

/-! ## The line -/

theorem committed_wf {s : State} (c : Byte) (h : s.lb.wf = true) : (committed c s).lb.wf = true := by
  simp only [committed]
  split
  · exact Memory.write_wf h _ _
  · exact h

theorem committed_within {s : State} (c : Byte) (h : s.lb.within s.cfg.lineCap = true) :
    (committed c s).lb.within s.cfg.lineCap = true := by
  simp only [committed]
  split
  · exact Memory.write_within h (by assumption) _
  · exact h

/-- A state whose line registers are clear holds the empty line, whatever LB holds. -/
theorem holds_nil {s : State} (hl : s.len = 0#8) (ht : s.talkBad = false) (hs : s.starSeen = false)
    (hi : s.starIdx = 0#8) (hx : s.xacc = 0#8) : Holds s [] where
  len := by simp [hl]
  stored := by simp
  talkBad := by simp [ht]
  starSeen := by simp [hs]
  starIdx := by simp [hi]
  xacc := by simp [hx, Source.computedChecksum]

/-- LEN is below 255 exactly when the line is, and then they are equal. -/
theorem Holds.len_eq {s : State} {t : List Byte} (h : Holds s t) {n : Nat} (hn : n < 255) :
    s.len.toNat = n ↔ t.length = n := by
  rw [h.len]; omega

theorem Holds.len_ofNat {s : State} {t : List Byte} (h : Holds s t) {n : Nat} (hn : n < 255) :
    s.len = BitVec.ofNat 8 n ↔ t.length = n := by
  rw [← BitVec.toNat_inj, ← h.len_eq hn, BitVec.toNat_ofNat, Nat.mod_eq_of_lt (by omega)]

theorem firstStar_append_of_mem {t : List Byte} (h : Config.star ∈ t) (c : Byte) :
    Source.firstStar (t ++ [c]) = Source.firstStar t := by
  simp only [Source.firstStar, List.idxOf_append, h, if_true]

theorem firstStar_of_not_mem {t : List Byte} (h : Config.star ∉ t) :
    Source.firstStar t = t.length := List.idxOf_eq_length h

theorem firstStar_append_of_not_mem {t : List Byte} (h : Config.star ∉ t) (c : Byte) :
    Source.firstStar (t ++ [c]) = if c = Config.star then t.length else t.length + 1 := by
  rw [Source.firstStar, List.idxOf_append, if_neg h]
  split
  · rename_i hc; simp [hc]
  · rename_i hc; simp [hc, Nat.add_comm]

/-- The checksum of a longer line: the character is folded in unless a `*` came before or it is the
first character or itself a `*` (R19, R96). -/
theorem computedChecksum_append (t : List Byte) (c : Byte) :
    Source.computedChecksum (t ++ [c]) =
      if Config.star ∉ t ∧ c ≠ Config.star ∧ t ≠ [] then Source.computedChecksum t ^^^ c
      else Source.computedChecksum t := by
  unfold Source.computedChecksum
  by_cases hm : Config.star ∈ t
  · rw [firstStar_append_of_mem hm, if_neg (by simp [hm])]
    have : Source.firstStar t ≤ t.length := List.idxOf_le_length
    rw [List.take_append_of_le_length this]
  · rw [firstStar_append_of_not_mem hm, firstStar_of_not_mem hm]
    by_cases hc : c = Config.star
    · simp [hc]
    · rw [if_neg hc, List.take_of_length_le (by simp), List.take_of_length_le (Nat.le_refl _)]
      cases t with
      | nil => simp
      | cons a t => simp [hm, hc, List.foldl_append, xor8]

/-- `append(c)` makes `c` the next character of the line (R71). -/
theorem holds_committed {s : State} {t : List Byte} (hwf : s.lb.wf = true) (h : Holds s t)
    (c : Byte) : Holds (committed c s) (t ++ [c]) := by
  have hcap := s.cfg.lineCap_le
  have hstar : s.starSeen = false ↔ Config.star ∉ t := by
    rw [← h.starSeen]; cases s.starSeen <;> simp
  constructor
  · have : min (s.len.toNat + 1) 255 < 256 := by omega
    simp only [committed, BitVec.toNat_ofNat, List.length_append, List.length_singleton]
    rw [Nat.mod_eq_of_lt (by omega), h.len]
    omega
  · intro i hi
    simp only [committed, List.length_append, List.length_singleton] at hi ⊢
    have hlen := h.len
    split
    · rename_i hlt
      have he : s.len.toNat = t.length := by omega
      rw [Memory.read_write hwf, he]
      split
      · rename_i hit; simp [hit]
      · rename_i hit
        rw [h.stored i (by omega)]
        simp [List.getElem?_append_left (show i < t.length by omega)]
    · rw [h.stored i (by omega)]
      simp [List.getElem?_append_left (show i < t.length by omega)]
  · simp only [committed, Bool.or_eq_true, h.talkBad, Bool.and_eq_true, beq_iff_eq, bne_iff_ne]
    have l0 : s.len = 0#8 ↔ t.length = 0 := h.len_ofNat (by omega)
    have l1 : s.len = 1#8 ↔ t.length = 1 := h.len_ofNat (by omega)
    have l2 : s.len = 2#8 ↔ t.length = 2 := h.len_ofNat (by omega)
    rw [l0, l1, l2]
    have get (i : Nat) (hi : i < t.length) : (t ++ [c]).getD i 0#8 = t.getD i 0#8 := by
      simp [List.getElem?_append_left hi]
    have last : (t ++ [c]).getD t.length 0#8 = c := by simp
    constructor
    · rintro (⟨i, hi, hne⟩ | h3)
      · exact ⟨i, by simp; omega, by rw [get i (by omega)]; exact hne⟩
      · refine ⟨t.length, by simp; omega, ?_⟩
        rw [last]
        rcases h3 with (⟨hl, hne⟩ | ⟨hl, hne⟩) | ⟨hl, hne⟩ <;> simpa [hl, Config.talker] using hne
    · rintro ⟨i, hi, hne⟩
      simp only [List.length_append, List.length_singleton] at hi
      by_cases hit : i < t.length
      · exact .inl ⟨i, by omega, by rw [← get i hit]; exact hne⟩
      · have he : i = t.length := by omega
        subst he
        rw [last] at hne
        right
        have : t.length = 0 ∨ t.length = 1 ∨ t.length = 2 := by omega
        rcases this with hl | hl | hl <;> simp [hl, Config.talker] at hne ⊢ <;> exact hne
  · simp only [committed, Bool.or_eq_true, h.starSeen, beq_iff_eq, List.mem_append,
      List.mem_singleton, eq_comm (a := c)]
  · simp only [committed]
    by_cases hm : Config.star ∈ t
    · have hs : s.starSeen = true := h.starSeen.2 hm
      rw [if_neg (by simp [hs]), h.starIdx, firstStar_append_of_mem hm]
      simp [hm]
    · have hs := hstar.2 hm
      by_cases hc : c = Config.star
      · rw [if_pos ⟨hs, hc⟩, h.len, firstStar_append_of_not_mem hm]
        simp [hc]
      · rw [if_neg (by simp [hc]), h.starIdx]
        simp [hm, Ne.symm hc]
  · simp only [committed]
    rw [computedChecksum_append, h.xacc]
    have hn : s.len ≠ 0#8 ↔ t ≠ [] := by
      rw [ne_eq, h.len_ofNat (n := 0) (by omega), List.length_eq_zero_iff]
    simp only [hstar, hn]

/-- The held CR is committed when there is one (R70). -/
theorem holds_heldCommitted {s : State} {t : List Byte} (hwf : s.lb.wf = true) (h : Holds s t) :
    Holds (heldCommitted s) (t ++ if s.crPend then [Config.cr] else []) := by
  cases hc : s.crPend
  · simpa [heldCommitted, hc] using h
  · simpa [heldCommitted, hc] using holds_committed hwf h Config.cr

/-- Holding a line is a matter of LB, LINE_CAP and the line registers alone. -/
theorem Holds.congr {s u : State} {t : List Byte} (h : Holds s t) (hcfg : u.cfg = s.cfg)
    (hlb : u.lb = s.lb) (hlen : u.len = s.len) (htb : u.talkBad = s.talkBad)
    (hss : u.starSeen = s.starSeen) (hsi : u.starIdx = s.starIdx) (hx : u.xacc = s.xacc) :
    Holds u t where
  len := by rw [hlen, h.len]
  stored := by rw [hcfg, hlb]; exact h.stored
  talkBad := by rw [htb]; exact h.talkBad
  starSeen := by rw [hss]; exact h.starSeen
  starIdx := by rw [hsi]; exact h.starIdx
  xacc := by rw [hx]; exact h.xacc

/-- A state that holds the line `t`, with no CR held: its characters committed one by one to an empty
line of an instance with parameter `cfg`. -/
def holding (cfg : Config) (t : List Byte) : State :=
  { t.foldl (fun s c => committed c s) { State.reset with cfg := cfg } with
    needsCont := !t.isEmpty, crPend := false }

theorem foldl_committed (t u : List Byte) {s : State} (hwf : s.lb.wf = true)
    (hin : s.lb.within s.cfg.lineCap = true) (h : Holds s u) :
    (t.foldl (fun s c => committed c s) s).cfg = s.cfg ∧
    (t.foldl (fun s c => committed c s) s).lb.wf = true ∧
    (t.foldl (fun s c => committed c s) s).lb.within s.cfg.lineCap = true ∧
    Holds (t.foldl (fun s c => committed c s) s) (u ++ t) := by
  induction t generalizing s u with
  | nil => exact ⟨rfl, hwf, hin, by simpa using h⟩
  | cons c t ih =>
    have := ih (u ++ [c]) (committed_wf c hwf) (committed_within c hin) (holds_committed hwf h c)
    simpa [committed] using this

/-- Every line is held by some state, whatever LINE_CAP is. -/
theorem holding_spec (cfg : Config) (t : List Byte) :
    (holding cfg t).cfg = cfg ∧ (holding cfg t).lb.wf = true ∧
    (holding cfg t).lb.within cfg.lineCap = true ∧ Tracks (holding cfg t) t := by
  obtain ⟨h1, h2, h3, h4⟩ := foldl_committed t [] (s := { State.reset with cfg := cfg }) rfl rfl
    (holds_nil rfl rfl rfl rfl rfl)
  rw [List.nil_append] at h4
  refine ⟨h1, h2, h3, { h4.congr rfl rfl rfl rfl rfl rfl rfl with needsCont := ?_ }⟩
  cases t <;> simp [holding]

theorem holding_tracks (cfg : Config) (t : List Byte) : Tracks (holding cfg t) t :=
  (holding_spec cfg t).2.2.2

/-! ## Runs -/

/-- One more step of a run. -/
theorem runSteps_succ (n : Nat) (s : State) :
    runSteps (n + 1) s =
      (runSteps n (stepped s)).map fun r => ((stepped s).out.toList ++ r.1, r.2) := by
  rw [runSteps, step_eq_stepped]

@[simp] theorem runPins_nil (s : State) : runPins [] s = some ([], { s with input := [] }) := rfl

/-- A run takes its pins one by one. -/
theorem runPins_cons (p : Pins) (ps : List Pins) (s : State) :
    runPins (p :: ps) s =
      (runSteps ps.length (stepped { s with input := p :: ps })).map fun r =>
        ((stepped { s with input := p :: ps }).out.toList ++ r.1, r.2) := by
  rw [runPins, List.length_cons, runSteps_succ]

/-- Every run of any number of steps reaches a state. -/
theorem runSteps_isSome (n : Nat) (s : State) : (runSteps n s).isSome = true := by
  induction n generalizing s with
  | zero => rfl
  | succ n ih => rw [runSteps_succ, Option.isSome_map]; exact ih _

/-- A run of `m + n` steps is a run of `m` and then one of `n`. -/
theorem runSteps_add (m n : Nat) (s : State) :
    runSteps (m + n) s =
      (runSteps m s).bind fun a => (runSteps n a.2).map fun b => (a.1 ++ b.1, b.2) := by
  induction m generalizing s with
  | zero => rw [Nat.zero_add]; cases h : runSteps n s <;> simp [runSteps, h]
  | succ m ih =>
    rw [Nat.succ_add, runSteps_succ, runSteps_succ, ih]
    cases runSteps m (stepped s) with
    | none => rfl
    | some a =>
      simp only [Option.bind_some, Option.map_some, Option.map_map]
      congr 1
      funext b
      simp

end Sys2Proof.Machine
end

