-- ==== Sys2Proof/Laws/PerInstr.lean ====
section
/-! SUPPORT. Statements made per command. `RowOfEncoding`: the row that the opcode table gives the
word of a well-formed command is the command's own row (rule R54). -/

namespace Sys2Proof.Laws.RowOfEncoding

def Statement (i : Instr) : Prop :=
  i.wf = true → (tableRow (encode i)).map (fun r => r.mnemonic) = some i.mnemonic

theorem nop (data : Byte) : Statement (.nop data) := by
  revert data; unfold Statement; decide
theorem feed (data : Byte) : Statement (.feed data) := by
  revert data; unfold Statement; decide
theorem feedCr : Statement .feedCr := by unfold Statement; decide
theorem feedLf : Statement .feedLf := by unfold Statement; decide
theorem feedStar : Statement .feedStar := by unfold Statement; decide
theorem feedComma : Statement .feedComma := by unfold Statement; decide
theorem clr (data : Byte) : Statement (.clr data) := by
  revert data; unfold Statement; decide
theorem rsv (data : Byte) : Statement (.rsv data) := by
  revert data; unfold Statement; decide

end Sys2Proof.Laws.RowOfEncoding
end

