-- ==== Sys2Proof/Tests/Slice0.lean ====
section
/-! SUPPORT. The model's own tests. Expected values come from the spec: `95_test_vectors.md` (V, T, K
and P vectors) and the examples of the rules; the words are written out from rule R45. Then the
witnesses: for each statement with hypotheses, a state and operands that meet them. -/

namespace Sys2Proof.Tests
open Sys2Proof.Machine

/-- The next state of an outcome. -/
def nextOf : Host.Outcome State Fault Refusal → Option State
  | .next s => some s
  | .fault _ => none
  | .refused _ => none

/-- The state of K3: `$GP*` fed from reset. -/
def afterStar : State :=
  { State.reset with
    lb := [(0, 0x24), (1, 0x47), (2, 0x50), (3, 0x2A)], len := 4, needsCont := true,
    starSeen := true, starIdx := 3, xacc := 0x17 }

/-- The state of P2 after its step 8: `$GP*17` and a held CR. -/
def heldLine : State :=
  { State.reset with
    lb := [(0, 0x24), (1, 0x47), (2, 0x50), (3, 0x2A), (4, 0x31), (5, 0x37)], len := 6,
    crPend := true, needsCont := true, starSeen := true, starIdx := 3, xacc := 0x17 }

/-- The state of P1 after its step 11: `$GPA,p*0A` and a held CR. -/
def heldUpper : State :=
  { State.reset with
    lb := [(0, 0x24), (1, 0x47), (2, 0x50), (3, 0x41), (4, 0x2C), (5, 0x70), (6, 0x2A), (7, 0x30),
           (8, 0x41)],
    len := 9, crPend := true, needsCont := true, starSeen := true, starIdx := 6, xacc := 0x0A }

/-- `s` with the pins presenting one word. -/
def presenting (w : CmdWord) (s : State) : State := { s with input := [Pins.ofWord w] }

/-! ## WellFormed smoke: the check refuses each ill-formed term -/

theorem test_feed_of_cr_ill_formed : (Instr.feed 0x0D).wf = false := by decide
theorem test_feed_of_lf_ill_formed : (Instr.feed 0x0A).wf = false := by decide
theorem test_feed_of_star_ill_formed : (Instr.feed 0x2A).wf = false := by decide
theorem test_feed_of_comma_ill_formed : (Instr.feed 0x2C).wf = false := by decide

/-! ## Decoding: words written out from R45, `op` in bits 9:8 and `data` in bits 7:0 -/

theorem test_decode_nop : decode 0b0000000000 = .nop 0x00 := by decide
theorem test_decode_nop_data : decode 0b0010100101 = .nop 0xA5 := by decide
theorem test_decode_feed : decode 0b0100100100 = .feed 0x24 := by decide
theorem test_decode_feed_ff : decode 0b0111111111 = .feed 0xFF := by decide
theorem test_decode_feed_cr : decode 0b0100001101 = .feedCr := by decide
theorem test_decode_feed_lf : decode 0b0100001010 = .feedLf := by decide
theorem test_decode_feed_star : decode 0b0100101010 = .feedStar := by decide
theorem test_decode_feed_comma : decode 0b0100101100 = .feedComma := by decide
theorem test_decode_clr : decode 0b1011111111 = .clr 0xFF := by decide
theorem test_decode_rsv : decode 0b1110100111 = .rsv 0xA7 := by decide
theorem test_decode_too_wide : decodeNat 0x400 = .error .widerThanCommandWord := by decide
theorem test_table_word : decodeTableWord 16 0x10D = some .feedCr := by decide

/-! ## One step of each command -/

/-- K1. -/
theorem test_nop_keeps_held_cr :
    nextOf (exec (.nop 0xA5) heldLine) = some { heldLine with out := none } := by decide
/-- P1 step 2. -/
theorem test_feed_dollar_from_reset :
    (nextOf (step (presenting 0x124 State.reset))).map statusPort =
      some ⟨1, 0, 1, 0, 0, 0, 0x00, 0⟩ := by decide
/-- P2 step 13: `X` at index 0 sets TALK_BAD. -/
theorem test_feed_x_sets_talk_bad :
    (nextOf (step (presenting 0x158 State.reset))).map statusPort =
      some ⟨1, 0, 1, 1, 0, 0, 0x00, 0⟩ := by decide
/-- P2 step 8. -/
theorem test_feed_cr_is_held :
    (nextOf (exec .feedCr { heldLine with crPend := false })).map statusPort =
      some ⟨6, 1, 1, 0, 1, 3, 0x17, 0⟩ := by decide
/-- R72: a second CR commits the first. -/
theorem test_feed_cr_after_cr :
    (nextOf (exec .feedCr heldLine)).map (fun t => (t.len, t.crPend, t.lb.read 6)) =
      some (7, true, 0x0D) := by decide
/-- P2 step 10. -/
theorem test_feed_lf_emits_record :
    (nextOf (exec .feedLf heldLine)).map (fun t => (t.out, statusPort t)) =
      some (some ⟨.ok, 6, false, [0x24, 0x47, 0x50, 0x2A, 0x31, 0x37], 0x2A3137, 3, 1⟩,
        ⟨0, 0, 0, 0, 0, 0, 0, 0⟩) := by decide
/-- P1 step 12: an upper-case digit matches. -/
theorem test_feed_lf_folds_case :
    (nextOf (exec .feedLf heldUpper)).map (fun t => t.out.map fun r =>
      (r.verdict, r.typeCode, r.star, r.nfields)) =
      some (some (.ok, 0x412C70, 6, 2)) := by decide
/-- P2 step 5. -/
theorem test_feed_star_marks_index :
    (nextOf (exec .feedStar { afterStar with len := 3, starSeen := false, starIdx := 0 })).map
      statusPort = some ⟨4, 0, 1, 0, 1, 3, 0x17, 0⟩ := by decide
/-- V27: a second `*` changes neither STAR_SEEN nor STAR_IDX. -/
theorem test_feed_second_star :
    (nextOf (exec .feedStar afterStar)).map statusPort = some ⟨5, 0, 1, 0, 1, 3, 0x17, 0⟩ := by
  decide
/-- P1 step 6: `,` is folded into XACC, 0x56 to 0x7A. -/
theorem test_feed_comma_folds :
    (nextOf (exec .feedComma { State.reset with len := 4, needsCont := true, xacc := 0x56 })).map
      statusPort = some ⟨5, 0, 1, 0, 0, 0, 0x7A, 0⟩ := by decide
/-- R74: a held CR is committed before the comma, at consecutive indices. -/
theorem test_feed_comma_after_cr :
    (nextOf (exec .feedComma heldLine)).map
      (fun t => (t.len, t.crPend, t.lb.read 6, t.lb.read 7)) = some (8, false, 0x0D, 0x2C) := by
  decide
/-- K2: CLR keeps ILLCMD. -/
theorem test_clr_keeps_illcmd :
    (nextOf (exec (.clr 0xFF) { heldLine with illcmd := true })).map statusPort =
      some ⟨0, 0, 0, 0, 0, 0, 0, 1⟩ := by decide
/-- K3. -/
theorem test_rsv_sets_illcmd :
    nextOf (exec (.rsv 0xA7) afterStar) = some { afterStar with illcmd := true } := by decide
/-- K4: reset wins over the FEED and clears ILLCMD. -/
theorem test_reset_step :
    (nextOf (step { heldLine with illcmd := true, input := [⟨true, true, 0x124⟩] })).map
      statusPort = some ⟨0, 0, 0, 0, 0, 0, 0, 0⟩ := by decide
/-- R42: at LEN = LINE_CAP the character is counted and not stored. -/
theorem test_feed_beyond_line_cap :
    (nextOf (exec (.feed 0x41) { State.reset with len := 82, needsCont := true })).map
      (fun t => (t.len, t.lb, t.xacc)) = some (83, [], 0x41) := by decide
/-- R14: LEN saturates at 255. -/
theorem test_feed_saturates :
    (nextOf (exec (.feed 0x41) { State.reset with len := 255, needsCont := true })).map
      (fun t => t.len) = some 255 := by decide
theorem test_with_fetch_word_runs_it :
    (nextOf (step (State.reset.withFetchWord 16 0x3A7))).map (fun t => t.illcmd) = some true := by
  decide
theorem test_reset_lb_canonical : State.reset.lb.wf = true := by decide

/-! ## Witnesses: the hypotheses of the statements can be met -/

theorem exec_next (i : Instr) (s : State) : ∃ t, exec i s = .next t := ⟨_, exec_eq_after i s⟩

theorem test_witness_DecodeAndEncodeAgree :
    (Instr.feed 0x00).wf = true ∧ (Instr.feed 0xFF).wf = true ∧ Instr.feedCr.wf = true := by decide

theorem test_witness_ReservedAndIgnoredEncodings :
    opField 0x300 = 3#2 ∧ opField 0x3FF = 3#2 ∧ opField 0x100 = 1#2 ∧ opField 0x1FF = 1#2 := by decide

theorem test_witness_PseudoCommandsExpand :
    AsmLine.done ∈ [AsmLine.start, .reset, .stop, .cancel, .done] := by decide

theorem test_witness_StepExecutesTheWordTaken :
    (presenting 0x124 State.reset).input = Pins.ofWord 0x124 :: [] ∧
    (Pins.ofWord 0x124).rst = false ∧ (Pins.ofWord 0x124).cmdValid = true ∧
    Pins.idle.rst = false ∧ Pins.idle.cmdValid = false ∧ State.reset.input = [] := by decide

theorem test_witness_ResetIgnoresTheCommand :
    (⟨true, true, 0x124⟩ : Pins).rst = true ∧ (⟨true, false, 0x3FF⟩ : Pins).rst = true := by decide

theorem test_witness_ResetStepClearsEveryRegister :
    ({ heldLine with input := [⟨true, true, 0x124⟩] } : State).input = ⟨true, true, 0x124⟩ :: [] ∧
    (⟨true, true, 0x124⟩ : Pins).rst = true := by decide

theorem test_witness_NopChangesNothing :
    (presenting 0x000 heldLine).input = Pins.ofWord 0x000 :: [] ∧ Pins.idle.rst = false ∧
    Pins.idle.cmdValid = false ∧ heldLine.crPend = true ∧ ∃ t, exec (.nop 0) heldLine = .next t :=
  ⟨rfl, rfl, rfl, rfl, exec_next ..⟩

theorem test_witness_ClrDiscardsTheLine :
    heldLine.lb.wf = true ∧ ∃ t, exec (.clr 0) heldLine = .next t := ⟨rfl, exec_next ..⟩

theorem test_witness_RsvOnlySetsIllcmd :
    (∃ t, exec (.rsv 0) heldLine = .next t ∧ ∃ u, exec .feedLf t = .next u) ∧
    (∃ v, exec .feedLf heldLine = .next v) ∧
    ∃ t, (pinsNow { heldLine with illcmd := true }).rst = false ∧
      step { heldLine with illcmd := true } = .next t :=
  ⟨⟨_, exec_eq_after .., exec_next ..⟩, exec_next .., ⟨_, rfl, step_eq_stepped _⟩⟩

/-- A reset step clears ILLCMD, so both hypotheses of the second clause can hold. -/
theorem test_witness_IllcmdIsStickyAndInert :
    (∃ t, exec (.rsv 0xFF) heldLine = .next t) ∧ (∃ t, exec .feedStar heldLine = .next t) ∧
    ∃ t, step { heldLine with illcmd := true, input := [⟨true, true, 0⟩] } = .next t ∧
      t.illcmd = false :=
  ⟨exec_next .., exec_next .., ⟨_, step_eq_stepped _, rfl⟩⟩

theorem test_witness_FeedCrHoldsTheCr :
    Instr.feedCr.char? = some 0x0D ∧ (Instr.feed 0x0D).char? = some 0x0D := by decide

/-- The clause covers an ordinary character, a held CR before one, and LF with no held CR. -/
theorem test_witness_FeedCommitsOtherCharacters :
    (Instr.feed 0xFF).char? = some 0xFF ∧ (0xFF : Byte) ≠ 0x0D ∧
    ¬ ((0xFF : Byte) = 0x0A ∧ heldLine.crPend = true) ∧ Instr.feedLf.char? = some 0x0A ∧
    ¬ ((0x0A : Byte) = 0x0A ∧ afterStar.crPend = true) ∧ Instr.feedStar.char? = some 0x2A ∧
    Instr.feedComma.char? = some 0x2C := by decide

/-- LEN at its two ends: an empty line, a line of one character, and the greatest LEN. -/
theorem test_witness_FeedLfCompletesTheTerminator :
    Instr.feedLf.char? = some 0x0A ∧ heldLine.crPend = true ∧ heldLine.len ≠ 0 ∧
    ({ heldLine with len := 255 } : State).len ≠ 0 ∧ ({ heldLine with len := 1 } : State).len ≠ 0 ∧
    ({ heldLine with len := 0 } : State).len = 0 := by decide

theorem test_witness_EmptyLinesAreDropped :
    Instr.feedLf.char? = some 0x0A ∧ ({ State.reset with crPend := true } : State).crPend = true ∧
    ({ State.reset with crPend := true } : State).len = 0 := by decide

theorem test_witness_NeedsContAfterFeed :
    Instr.feedLf.char? = some 0x0A ∧ (∃ t, exec .feedLf heldLine = .next t) ∧
    ∃ t, exec .feedLf afterStar = .next t := ⟨rfl, exec_next .., exec_next ..⟩

theorem inv_reset : Inv State.reset :=
  ⟨rfl, rfl, [], { holds_nil rfl rfl rfl rfl rfl with needsCont := by simp [State.reset] },
    by simp, by simp⟩

/-- A line that a state holds, with no CR in it, gives the invariant. -/
theorem inv_holding (t : List Byte) (h : Config.cr ∉ t) : Inv (holding Config.default82 t) := by
  obtain ⟨h1, h2, h3, h4⟩ := holding_spec Config.default82 t
  refine ⟨h2, by rw [h1]; exact h3, t, h4, fun i hi => h (List.mem_of_getElem? hi.1), fun _ hl => ?_⟩
  exact h (List.mem_of_getLast? hl)

theorem test_witness_PhaseTableHolds :
    (∃ t, exec .feedLf heldLine = .next t) ∧ Inv State.reset ∧
    Inv (holding Config.default82 [0x24, 0x47]) :=
  ⟨exec_next .., inv_reset, inv_holding _ (by decide)⟩

theorem test_witness_RecordsOnlyAtLineEnds :
    (∃ t, step (presenting 0x10A heldLine) = .next t) ∧
    ∃ rs t, runPins [Pins.ofWord 0x10A] heldLine = some (rs, t) :=
  ⟨⟨_, step_eq_stepped _⟩, ⟨_, _, rfl⟩⟩

/-- LEN at LINE_CAP and at 255. -/
theorem test_witness_UnstoredCharactersAreCounted :
    (Instr.feed 0x41).char? = some 0x41 ∧ (0x41 : Byte) ≠ 0x0D ∧ State.reset.crPend = false ∧
    State.reset.cfg.lineCap ≤ ({ State.reset with len := 82 } : State).len.toNat ∧
    State.reset.cfg.lineCap ≤ ({ State.reset with len := 255 } : State).len.toNat ∧
    (∃ t, exec (.feed 0x41) { State.reset with len := 82 } = .next t) ∧
    ∃ r, evaluate { State.reset with len := 83 } = .ok r :=
  ⟨rfl, by decide, rfl, by decide, by decide, exec_next .., ⟨_, evaluate_ok _⟩⟩

theorem test_witness_ControlCommandsFrame :
    (Instr.nop 0).char? = none ∧ (Instr.clr 0).char? = none ∧ (Instr.rsv 0).char? = none ∧
    opField (encode (.nop 0)) ≠ 2#2 ∧ opField (encode (.rsv 0)) ≠ 2#2 ∧
    opField (encode (.clr 0)) ≠ 3#2 ∧ ∃ t, exec (.clr 0) heldLine = .next t :=
  ⟨rfl, rfl, rfl, by decide, by decide, by decide, exec_next ..⟩

/-- Each clause of the frame: a terminator, a CR with and without a held one, a character with and
without a held CR, the last one storing at indices 6 and 7. -/
theorem test_witness_FeedFrame :
    heldLine.crPend = true ∧ afterStar.crPend = false ∧ Instr.feedLf.char? = some 0x0A ∧
    Instr.feedCr.char? = some 0x0D ∧ Instr.feedStar.char? = some 0x2A ∧
    (∃ t, exec .feedStar heldLine = .next t) ∧
    ∃ s1, append 0x0D heldLine = .ok s1 ∧ storeIndex heldLine ≠ some 8 ∧ storeIndex s1 ≠ some 8 :=
  ⟨rfl, rfl, rfl, rfl, rfl, exec_next .., ⟨_, append_ok .., by decide, by decide⟩⟩

/-- `$GP*17`, the least valid line (V3). -/
def leastLine : List Byte := [0x24, 0x47, 0x50, 0x2A, 0x31, 0x37]

theorem test_witness_FirstFailingCheckIsTheVerdict :
    Tracks (holding Config.default82 leastLine) leastLine ∧ leastLine ≠ [] ∧
    Tracks (holding Config.default82 (List.replicate 83 0x31)) (List.replicate 83 0x31) :=
  ⟨holding_tracks .., by decide, holding_tracks ..⟩

/-- Both clauses: V3 validates, V4 does not. -/
theorem test_witness_EvaluateIsValidate :
    (∃ z, Source.validate leastLine = .ok z) ∧ Tracks (holding Config.default82 leastLine) leastLine ∧
    Source.validate [0x24, 0x47, 0x50, 0x2A, 0x31] = .error .checksumMismatch ∧
    Tracks (holding Config.default82 [0x24, 0x47, 0x50, 0x2A, 0x31]) [0x24, 0x47, 0x50, 0x2A, 0x31] :=
  ⟨⟨_, rfl⟩, holding_tracks .., rfl, holding_tracks ..⟩

theorem heldLine_tracks : Tracks heldLine leastLine where
  len := by decide
  stored := by decide
  talkBad := by decide
  starSeen := by decide
  starIdx := by decide
  xacc := by decide
  needsCont := by decide

/-- A record with verdict OK, and one with another verdict. -/
theorem test_witness_NoErrorIsPromoted :
    (Tracks heldLine leastLine ∧ ∃ u r, exec .feedLf heldLine = .next u ∧ u.out = some r ∧
      r.verdict = .ok) ∧
    ∃ s u r, Tracks s [0x24] ∧ exec .feedLf s = .next u ∧ u.out = some r ∧ r.verdict = .badTalker := by
  refine ⟨⟨heldLine_tracks, _, _, exec_eq_after .., rfl, by decide⟩, ?_⟩
  refine ⟨{ holding Config.default82 [0x24] with crPend := true }, _, _, ?_, exec_eq_after .., rfl,
    by decide⟩
  exact { (holding_tracks Config.default82 [0x24]).toHolds.congr rfl rfl rfl rfl rfl rfl rfl with
          needsCont := by decide }

theorem test_witness_ValidLinesHaveTheirShape :
    ∃ r, Tracks (holding Config.default82 leastLine) leastLine ∧
      evaluate (holding Config.default82 leastLine) = .ok r ∧ r.verdict = .ok ∧
      CheckTalker leastLine ∧ CheckLength leastLine ∧ CheckField leastLine :=
  ⟨_, holding_tracks .., evaluate_ok _, by decide, by unfold CheckTalker; decide,
    by unfold CheckLength; decide, 3, ⟨by decide, by decide⟩, by decide⟩

/-- V18 with index 7 changed (V30), and the two ends of the range: index 0 (V31), the `*` (V33). -/
theorem test_witness_ChangedCharactersAreCaught :
    ∃ t : List Byte, t = [0x24, 0x47, 0x50, 0x47, 0x47, 0x41, 0x2C, 0x31, 0x2C, 0x32, 0x2A, 0x35, 0x35] ∧
      Source.verdict t = .ok ∧ FirstStarAt t 10 ∧ t[7]? ≠ some 0x33 ∧ t[0]? ≠ some 0x21 ∧
      t[10]? ≠ some 0x78 ∧
      (∃ r, Tracks (holding Config.default82 (t.set 7 0x33)) (t.set 7 0x33) ∧
        evaluate (holding Config.default82 (t.set 7 0x33)) = .ok r) ∧
      Tracks (holding Config.default82 (t.set 0 0x21)) (t.set 0 0x21) ∧
      Tracks (holding Config.default82 (t.set 10 0x78)) (t.set 10 0x78) :=
  ⟨_, rfl, by decide, ⟨by decide, by decide⟩, by decide, by decide, by decide,
    ⟨_, holding_tracks .., evaluate_ok _⟩, holding_tracks .., holding_tracks ..⟩

/-- 83 characters, and the 310 of the example. -/
theorem test_witness_OverlongLinesNeverValidate :
    (∃ t : List Byte, Tracks (holding Config.default82 t) t ∧ t.length = 83) ∧
    ∃ t : List Byte, Tracks (holding Config.default82 t) t ∧ t.length = 310 ∧ CheckTalker t ∧
      (holding Config.default82 t).cfg.lineCap = 82 :=
  ⟨⟨List.replicate 83 0x31, holding_tracks .., List.length_replicate⟩,
    ⟨[0x24, 0x47, 0x50] ++ List.replicate 307 0x31, holding_tracks ..,
      by rw [List.length_append, List.length_replicate]; rfl,
      ⟨by rw [List.length_append, List.length_replicate]; decide, rfl, rfl, rfl⟩, by rw [(holding_spec ..).1]; rfl⟩⟩

/-- LINE_CAP at both ends of its range. -/
theorem test_witness_LineCapOnlyCutsTheText :
    ∃ c : Config, c.lineCap = 254 ∧ Tracks (holding c leastLine) leastLine ∧
      Tracks (holding Config.default82 leastLine) leastLine ∧
      (∃ r, evaluate (holding c leastLine) = .ok r) ∧
      ∃ r, evaluate (holding Config.default82 leastLine) = .ok r :=
  ⟨⟨254, by decide, by decide⟩, rfl, holding_tracks .., holding_tracks .., ⟨_, evaluate_ok _⟩,
    ⟨_, evaluate_ok _⟩⟩

/-- A step with a record, one without, and a reset step. -/
theorem test_witness_ResultPortSignals :
    (∃ t, step (presenting 0x10A heldLine) = .next t) ∧ (pinsNow (presenting 0x10A heldLine)).rst = false ∧
    endsLine (decode (pinsNow (presenting 0x10A heldLine)).word) (presenting 0x10A heldLine) = true ∧
    (∃ t, step (presenting 0x10A afterStar) = .next t) ∧
    endsLine (decode (pinsNow (presenting 0x10A afterStar)).word) (presenting 0x10A afterStar) = false ∧
    (pinsNow { heldLine with input := [⟨true, true, 0x10A⟩] }).rst = true ∧
    (∃ v, verdictOf heldLine = .ok v ∧ v = .ok) ∧ ∃ v, verdictOf afterStar = .ok v ∧ v ≠ .ok :=
  ⟨⟨_, step_eq_stepped _⟩, rfl, by decide, ⟨_, step_eq_stepped _⟩, by decide, rfl,
    ⟨_, verdictOf_ok _, by decide⟩, ⟨_, verdictOf_ok _, by decide⟩⟩

theorem test_witness_CommandsTrackTheLine :
    heldLine.lb.wf = true ∧ Tracks heldLine leastLine := ⟨rfl, heldLine_tracks⟩

theorem inv_heldLine : Inv heldLine :=
  ⟨rfl, rfl, leastLine, heldLine_tracks,
    fun i hi => absurd (List.mem_of_getElem? hi.1) (by decide), by decide⟩

theorem test_witness_StepKeepsTheInvariant :
    Inv (presenting 0x10A heldLine) ∧ ∃ t, step (presenting 0x10A heldLine) = .next t := by
  refine ⟨⟨rfl, rfl, leastLine, ?_, fun i hi => absurd (List.mem_of_getElem? hi.1) (by decide),
    by decide⟩, _, step_eq_stepped _⟩
  exact { heldLine_tracks.toHolds.congr rfl rfl rfl rfl rfl rfl rfl with
          needsCont := heldLine_tracks.needsCont }

theorem test_witness_RunsNeverStop : Inv heldLine ∧ Inv State.reset := ⟨inv_heldLine, inv_reset⟩

/-- A buffer that differs at index 6, the first stale one. -/
theorem test_witness_StaleBytesAreNeverObserved :
    ∃ m : Memory, Inv heldLine ∧ m.wf = true ∧
      (∀ a, a < min heldLine.len.toNat heldLine.cfg.lineCap → m.read a = heldLine.lb.read a) ∧
      m ≠ heldLine.lb :=
  ⟨heldLine.lb.write 6 0xFF, inv_heldLine, rfl, by decide, by decide⟩

/-- A step that stores at the first stale index, the buffers differing there. -/
theorem test_witness_StepKeepsStaleBytesStale :
    ∃ m : Memory, Inv heldLine ∧ m.wf = true ∧
      (∀ a, a < min heldLine.len.toNat heldLine.cfg.lineCap → m.read a = heldLine.lb.read a) ∧
      m.read 6 ≠ heldLine.lb.read 6 :=
  ⟨heldLine.lb.write 6 0xFF, inv_heldLine, rfl, by decide, by decide⟩

theorem test_witness_LinesAreIndependent :
    heldLine.lb.wf = true ∧ afterStar.lb.wf = true ∧ heldLine.cfg = afterStar.cfg ∧
    (Instr.feedLf.char? = some 0x0A ∧ heldLine.crPend = true) ∧ opField (encode (.clr 0)) = 2#2 ∧
    (∃ t, exec .feedLf heldLine = .next t) ∧ ∃ t, exec (.clr 0) afterStar = .next t :=
  ⟨rfl, rfl, rfl, ⟨rfl, rfl⟩, by decide, exec_next .., exec_next ..⟩

/-- The same characters with and without idle steps and an RSV. -/
theorem test_witness_RechunkingChangesNothing :
    (∀ p ∈ [Pins.ofWord 0x124, Pins.ofWord 0x147], p.rst = false) ∧
    (∀ p ∈ [Pins.ofWord 0x124, Pins.idle, Pins.ofWord 0x3FF, Pins.ofWord 0x147], p.rst = false) ∧
    [Pins.ofWord 0x124, Pins.ofWord 0x147].filterMap Pins.lineEvent? =
      [Pins.ofWord 0x124, Pins.idle, Pins.ofWord 0x3FF, Pins.ofWord 0x147].filterMap Pins.lineEvent? := by
  decide

/-- The same LF fed with and without ILLCMD and further pins; and an RSV, which has no line event. -/
theorem test_witness_SameLineEventKeepsStatesEqual :
    (pinsNow (presenting 0x10A heldLine)).rst = false ∧
    (pinsNow { heldLine with illcmd := true, input := [Pins.ofWord 0x10A, Pins.idle] }).rst = false ∧
    (pinsNow (presenting 0x10A heldLine)).lineEvent? =
      (pinsNow { heldLine with illcmd := true, input := [Pins.ofWord 0x10A, Pins.idle] }).lineEvent? ∧
    (∃ s2 : State, s2.illcmd ≠ (presenting 0x10A heldLine).illcmd ∧
      s2 = { presenting 0x10A heldLine with illcmd := s2.illcmd, input := s2.input, out := s2.out }) ∧
    (pinsNow (presenting 0x3FF heldLine)).rst = false ∧
    (pinsNow (presenting 0x3FF heldLine)).lineEvent? = none :=
  ⟨rfl, rfl, rfl, ⟨{ heldLine with illcmd := true, input := [Pins.ofWord 0x10A, Pins.idle] },
    by decide, rfl⟩, rfl, by decide⟩

/-- The LF that completes the terminator of `$GP*17`, and an idle step. -/
theorem test_witness_FeedStepKeepsTheSourcesBuffer :
    heldLine.lb.wf = true ∧ Tracks heldLine leastLine ∧ NoTerminator heldLine leastLine ∧
    (pinsNow (presenting 0x10A heldLine)).feedsOrIdles = true ∧
    (pinsNow heldLine).feedsOrIdles = true :=
  ⟨rfl, heldLine_tracks,
    ⟨fun i hi => absurd (List.mem_of_getElem? hi.1) (by decide), by decide⟩, by decide, by decide⟩

/-- A terminator split between two chunks, with an idle step (T4). -/
theorem test_witness_ReassemblyIsTheSourcesAlgorithm :
    heldLine.lb.wf = true ∧ (∃ s, exec (.clr 0) heldLine = .next s) ∧
    ∀ ps ∈ [[Pins.ofWord 0x141, Pins.ofWord 0x10D], [Pins.idle, Pins.ofWord 0x10A]],
      ∀ p ∈ ps, p.feedsOrIdles = true := ⟨rfl, exec_next .., by decide⟩

end Sys2Proof.Tests
end

section
/-! The state after a FEED, case by case (rules R70 to R74), and what every command does to LINE_CAP,
to the result port and to ILLCMD. -/

namespace Sys2Proof.Machine

/-! ## The fields a commit leaves alone (R71) -/

@[simp] theorem committed_cfg (c : Byte) (s : State) : (committed c s).cfg = s.cfg := rfl
@[simp] theorem committed_out (c : Byte) (s : State) : (committed c s).out = s.out := rfl

@[simp] theorem heldCommitted_cfg (s : State) : (heldCommitted s).cfg = s.cfg := by
  cases h : s.crPend <;> simp [heldCommitted, h]

@[simp] theorem heldCommitted_out (s : State) : (heldCommitted s).out = s.out := by
  cases h : s.crPend <;> simp [heldCommitted, h]

/-! ## The cases of FEED (R70) -/

theorem fedCase_cr (s : State) :
    fedCase Config.cr s = { heldCommitted s with crPend := true } := if_pos rfl

/-- R73: LF completes the terminator of a line that is not empty. -/
theorem fedCase_completes {s : State} (hc : s.crPend = true) (hl : s.len ≠ 0#8) :
    fedCase Config.lf s = clearLine (emit (some (recordOf s)) s) := by
  rw [fedCase, if_neg (by decide), if_pos ⟨rfl, hc⟩, if_pos hl]

/-- R75: LF completes the terminator of an empty line. -/
theorem fedCase_empty {s : State} (hc : s.crPend = true) (hl : s.len = 0#8) :
    fedCase Config.lf s = clearLine s := by
  rw [fedCase, if_neg (by decide), if_pos ⟨rfl, hc⟩, if_neg (not_not.2 hl)]

theorem fedCase_commits {d : Byte} {s : State} (hd : d ≠ Config.cr)
    (hlf : ¬ (d = Config.lf ∧ s.crPend = true)) :
    fedCase d s = committed d { heldCommitted s with crPend := false } := by
  rw [fedCase, if_neg hd, if_neg hlf]

/-- The four cases of FEED (R70), the character and the state after in each. -/
theorem fedCase_cases (d : Byte) (s : State) :
    (d = Config.cr ∧ fedCase d s = { heldCommitted s with crPend := true }) ∨
    (d = Config.lf ∧ s.crPend = true ∧ s.len ≠ 0#8 ∧
      fedCase d s = clearLine (emit (some (recordOf s)) s)) ∨
    (d = Config.lf ∧ s.crPend = true ∧ s.len = 0#8 ∧ fedCase d s = clearLine s) ∨
    (d ≠ Config.cr ∧ ¬ (d = Config.lf ∧ s.crPend = true) ∧
      fedCase d s = committed d { heldCommitted s with crPend := false }) := by
  by_cases hd : d = Config.cr
  · exact .inl ⟨hd, hd ▸ fedCase_cr s⟩
  · by_cases hlf : d = Config.lf ∧ s.crPend = true
    · obtain ⟨rfl, hc⟩ := hlf
      by_cases hl : s.len = 0#8
      · exact .inr (.inr (.inl ⟨rfl, hc, hl, fedCase_empty hc hl⟩))
      · exact .inr (.inl ⟨rfl, hc, hl, fedCase_completes hc hl⟩)
    · exact .inr (.inr (.inr ⟨hd, hlf, fedCase_commits hd hlf⟩))

/-! ## ILLCMD: set by RSV, read by no command (R21) -/

theorem heldCommitted_illcmd_set (s : State) (b : Bool) :
    heldCommitted { s with illcmd := b } = { heldCommitted s with illcmd := b } := by
  cases h : s.crPend <;> simp [heldCommitted, h, committed]

theorem fedCase_illcmd_set (d : Byte) (s : State) (b : Bool) :
    fedCase d { s with illcmd := b } = { fedCase d s with illcmd := b } := by
  obtain ⟨rfl, h⟩ | ⟨rfl, hc, hl, h⟩ | ⟨rfl, hc, hl, h⟩ | ⟨hd, hlf, h⟩ := fedCase_cases d s
  · rw [h, fedCase_cr, heldCommitted_illcmd_set]
  · rw [h]
    exact fedCase_completes hc hl
  · rw [h]
    exact fedCase_empty hc hl
  · rw [h, fedCase_commits (s := { s with illcmd := b }) hd hlf, heldCommitted_illcmd_set]
    rfl

theorem fed_illcmd_set (d : Byte) (s : State) (b : Bool) :
    fed d { s with illcmd := b } = { fed d s with illcmd := b } := by
  have h := fedCase_illcmd_set d (emit none s) b
  exact congrArg updateNeedsCont h

/-- The `op` field of the word of a command is the field it was made with (R45). -/
theorem opField_mkWord (op : BitVec 2) (d : Byte) : opField (mkWord op d) = op :=
  BitVec.extractLsb'_append_eq_left

theorem after_illcmd_set (i : Instr) (s : State) (b : Bool) :
    after i { s with illcmd := b } =
      { after i s with illcmd := if opField (encode i) = 3#2 then true else b } := by
  cases i with
  | nop d => simp [encode, opField_mkWord, after, emit]
  | clr d => simp [encode, opField_mkWord, after, emit, clearLine]
  | rsv d => simp [encode, opField_mkWord, after, emit, raiseIllegalCommand]
  | _ => simp [encode, opField_mkWord, after, fed_illcmd_set]

/-- ILLCMD after a command: 1 after RSV, kept by every other command. -/
theorem after_illcmd (i : Instr) (s : State) :
    (after i s).illcmd = if opField (encode i) = 3#2 then true else s.illcmd :=
  congrArg State.illcmd (after_illcmd_set i s s.illcmd)

/-! ## The two kinds of step (R22, R133) -/

theorem stepped_of_reset {s : State} (h : (pinsNow s).rst = true) :
    stepped s = hardReset (takePins s) := if_pos h

theorem stepped_of_command {s : State} (h : (pinsNow s).rst = false) :
    stepped s = after (decode (pinsNow s).word) (takePins s) := if_neg (by simp [h])

/-- Settles O15: every command commutes with a change of ILLCMD, and a command keeps ILLCMD or sets
it, so only a reset step clears it. -/
theorem illcmdIsStickyAndInert : Obligations.IllcmdIsStickyAndInert := by
  refine ⟨fun i s t b h => ?_, fun s t h hs ht => ?_⟩
  · rw [exec_eq_after] at h ⊢
    cases h
    rw [after_illcmd_set]
  · rw [step_eq_stepped] at h
    cases h
    by_contra hr
    rw [stepped_of_command (Bool.not_eq_true _ ▸ hr), after_illcmd, takePins_illcmd, hs] at ht
    simp at ht

/-! ## LINE_CAP and the record of a step (R23, R73) -/

theorem fedCase_cfg (d : Byte) (s : State) : (fedCase d s).cfg = s.cfg := by
  obtain ⟨_, h⟩ | ⟨_, _, _, h⟩ | ⟨_, _, _, h⟩ | ⟨_, _, h⟩ := fedCase_cases d s <;> simp [h]

@[simp] theorem fed_cfg (d : Byte) (s : State) : (fed d s).cfg = s.cfg :=
  fedCase_cfg d (emit none s)

@[simp] theorem after_cfg (i : Instr) (s : State) : (after i s).cfg = s.cfg := by
  cases i with
  | nop | clr | rsv => rfl
  | _ => exact fed_cfg _ s

@[simp] theorem stepped_cfg (s : State) : (stepped s).cfg = s.cfg := by
  cases h : (pinsNow s).rst with
  | false => rw [stepped_of_command h, after_cfg, takePins_cfg]
  | true => rw [stepped_of_reset h, hardReset_cfg, takePins_cfg]

theorem fedCase_out (d : Byte) (s : State) :
    (fedCase d s).out =
      if d = Config.lf ∧ s.crPend = true ∧ s.len ≠ 0#8 then some (recordOf s) else s.out := by
  obtain ⟨rfl, h⟩ | ⟨rfl, hc, hl, h⟩ | ⟨rfl, _, hl, h⟩ | ⟨_, hlf, h⟩ := fedCase_cases d s
  · rw [h, if_neg (fun hd => absurd hd.1 (by decide)), heldCommitted_out]
  · rw [h, if_pos ⟨rfl, hc, hl⟩, clearLine_out, emit_out]
  · rw [h, if_neg (fun hd => hd.2.2 hl), clearLine_out]
  · rw [h, if_neg (fun hd => hlf ⟨hd.1, hd.2.1⟩), committed_out, heldCommitted_out]

/-- A FEED emits the record of the line it ends, else nothing. -/
theorem fed_out (d : Byte) (s : State) :
    (fed d s).out =
      if d = Config.lf ∧ s.crPend = true ∧ s.len ≠ 0#8 then some (recordOf s) else none :=
  fedCase_out d (emit none s)

theorem endsLine_of_char {i : Instr} {d : Byte} (h : i.char? = some d) (s : State) :
    endsLine i s = true ↔ d = Config.lf ∧ s.crPend = true ∧ s.len ≠ 0#8 := by
  simp [endsLine, h, and_assoc]

/-- A command emits the record of the line it ends, else nothing. -/
theorem after_out (i : Instr) (s : State) :
    (after i s).out = if endsLine i s = true then some (recordOf s) else none := by
  cases h : i.char? with
  | some d => simp only [after_feed h, fed_out, endsLine_of_char h]
  | none =>
    rw [if_neg (by simp [endsLine, h])]
    cases i with
    | nop | clr | rsv => rfl
    | _ => cases h

/-- A step with a record is no reset step and ends a line; the record is that of the state before. -/
theorem stepped_out (s : State) :
    (stepped s).out =
      if (pinsNow s).rst = false ∧ endsLine (decode (pinsNow s).word) s = true
      then some (recordOf s) else none := by
  cases h : (pinsNow s).rst with
  | false =>
    rw [stepped_of_command h, after_out]
    simp only [true_and]
    -- `takePins` changes nothing that `endsLine` and `recordOf` read.
    rfl
  | true => simp [stepped_of_reset h]

/-! ## The result port (R23) -/

theorem padText_nil (cap : Nat) : padText cap [] = List.replicate cap 0 := by simp [padText]

theorem padText_length (cap : Nat) (t : List Byte) : (padText cap t).length = cap := by
  simp [padText]

theorem padText_getD {cap i : Nat} (t : List Byte) (hi : i < cap) :
    (padText cap t).getD i 0 = t.getD i 0 := by
  rw [List.getD_eq_getElem?_getD, List.getD_eq_getElem?_getD, padText, List.getElem?_take_of_lt hi]
  by_cases ht : i < t.length
  · rw [List.getElem?_append_left ht]
  · have ht : t.length ≤ i := Nat.le_of_not_lt ht
    rw [List.getElem?_append_right ht, List.getElem?_eq_none ht, List.getElem?_replicate]
    split <;> rfl

theorem textOf_getD (s : State) (i : Nat) :
    (textOf s).getD i 0 = if i < storedCount s then s.lb.read i else 0 := by
  by_cases h : i < storedCount s <;> simp [textOf, h]

theorem resultPort_of_none {t : State} (h : t.out = none) :
    resultPort t = ⟨0, 0, 0, 0, List.replicate t.cfg.lineCap 0, 0, 0, 0⟩ := by
  simp only [resultPort, h, padText_nil]

theorem resultPort_of_some {t : State} {r : Result} (h : t.out = some r) :
    resultPort t =
      ⟨1, r.verdict.code, r.len, BitVec.ofBool r.trunc, padText t.cfg.lineCap r.text, r.typeCode,
        r.star, r.nfields⟩ := by
  simp only [resultPort, h]

/-- R23: `res_text` shows the stored characters of the line, and 0 above them. -/
theorem padText_textOf_getD (s : State) {i : Nat} (hi : i < s.cfg.lineCap) :
    (padText s.cfg.lineCap (textOf s)).getD i 0 =
      if i < min s.len.toNat s.cfg.lineCap then s.lb.read i else 0 := by
  rw [padText_getD _ hi, textOf_getD, storedCount]

/-! ## The parts of a Sentence (R101 to R103) -/

/-- A character occurs at most once for each index of a region of LB. -/
theorem count_region_le (m : Memory) (c : Byte) (n : Nat) :
    ((List.range n).map fun i => m.read i).count c ≤ n := by
  calc ((List.range n).map fun i => m.read i).count c
      ≤ ((List.range n).map fun i => m.read i).length := List.count_le_length
    _ = n := by rw [List.length_map, List.length_range]

/-- Of an OK line, STAR_IDX is LEN - 3 (R105). -/
theorem starIdx_of_ok {s : State} (h : verdictIs s = .ok) : s.starIdx = s.len - 3#8 := by
  obtain ⟨hstar, _⟩ := ok_bounds h
  bv_omega

/-- The parts of a Sentence in the record of an OK line (R101 to R103). -/
theorem recordOf_of_ok {s : State} (h : verdictIs s = .ok) :
    (recordOf s).typeCode = s.lb.read 3 ++ s.lb.read 4 ++ s.lb.read 5 ∧
      (recordOf s).star = s.starIdx ∧
      (recordOf s).nfields = BitVec.ofNat 7
        (1 + ((List.range s.starIdx.toNat).map fun i => s.lb.read i).count Config.comma) :=
  ⟨if_pos h, if_pos h, if_pos h⟩

/-- The field count of an OK line fits `res_nfields`: the line has at most 79 characters before its
first `*`, so the 7 bits never wrap (R103). -/
theorem recordOf_nfields_toNat {s : State} (h : verdictIs s = .ok) :
    (recordOf s).nfields.toNat =
      1 + ((List.range s.starIdx.toNat).map fun i => s.lb.read i).count Config.comma := by
  obtain ⟨hstar, hlen⟩ := ok_bounds h
  obtain ⟨_, _, hfields⟩ := recordOf_of_ok h
  have hcount := count_region_le s.lb Config.comma s.starIdx.toNat
  rw [hfields, BitVec.toNat_ofNat, Nat.mod_eq_of_lt (by omega)]

/-- The record of a line with an error has none of the parts of a Sentence. -/
theorem recordOf_of_error {s : State} (h : verdictIs s ≠ .ok) :
    (recordOf s).typeCode = 0 ∧ (recordOf s).star = 0 ∧ (recordOf s).nfields = 0 :=
  ⟨if_neg h, if_neg h, if_neg h⟩

/-- R23: the port of a step that ends no line. -/
theorem resultPort_stepped_of_no_line {s : State}
    (h : (pinsNow s).rst = true ∨ endsLine (decode (pinsNow s).word) s = false) :
    resultPort (stepped s) = ⟨0, 0, 0, 0, List.replicate s.cfg.lineCap 0, 0, 0, 0⟩ := by
  have hout : (stepped s).out = none := by
    rw [stepped_out, if_neg]
    rcases h with h | h <;> simp [h]
  rw [resultPort_of_none hout, stepped_cfg]

/-- R23: the port of a step that ends a line shows its record. -/
theorem resultPort_stepped_of_line {s : State} (hr : (pinsNow s).rst = false)
    (he : endsLine (decode (pinsNow s).word) s = true) :
    resultPort (stepped s) =
      ⟨1, (verdictIs s).code, s.len, BitVec.ofBool (decide (s.cfg.lineCap < s.len.toNat)),
        padText s.cfg.lineCap (textOf s), (recordOf s).typeCode, (recordOf s).star,
        (recordOf s).nfields⟩ := by
  have hout : (stepped s).out = some (recordOf s) := by rw [stepped_out, if_pos ⟨hr, he⟩]
  rw [resultPort_of_some hout, stepped_cfg]
  rfl

/-- Settles O35: the port shows the record of the line the step ends, or zeros; each signal is then
a fact about that record. -/
theorem resultPortSignals : Obligations.ResultPortSignals := by
  refine ⟨fun s t h hno => ?_, fun s t h hr he => ?_, rfl⟩
  · rw [step_eq_stepped] at h
    cases h
    exact resultPort_stepped_of_no_line hno
  · rw [step_eq_stepped] at h
    cases h
    rw [resultPort_stepped_of_line hr he]
    refine ⟨verdictIs s, verdictOf_ok s, rfl, rfl, rfl, ?trunc, padText_length _ _,
      fun i hi => padText_textOf_getD s hi, fun hv => ?ok, recordOf_of_error⟩
    case trunc => by_cases hc : s.cfg.lineCap < s.len.toNat <;> simp [hc]
    case ok =>
      obtain ⟨htype, hstar, _⟩ := recordOf_of_ok hv
      exact ⟨htype, hstar, starIdx_of_ok hv, recordOf_nfields_toNat hv⟩

end Sys2Proof.Machine
end

section
/-! Decoding by the two fields of a word (rules R45, R48, R49), and the words of the FEEDs that a
FEEDS string stands for (rule R51). -/

namespace Sys2Proof.Machine

/-! ## A command by its `op` field (R45) -/

/-- The `data` field of the word of a command is the data it was made with (R45). -/
theorem dataField_mkWord (op : BitVec 2) (d : Byte) : dataField (mkWord op d) = d :=
  BitVec.extractLsb'_append_eq_right

theorem decode_of_op_nop {w : CmdWord} (h : opField w = 0#2) : decode w = .nop (dataField w) :=
  if_pos h

theorem decode_of_op_feed {w : CmdWord} (h : opField w = 1#2) :
    decode w = decodeFeed (dataField w) := by
  simp [decode, h]

theorem decode_of_op_clr {w : CmdWord} (h : opField w = 2#2) : decode w = .clr (dataField w) := by
  simp [decode, h]

theorem decode_of_op_rsv {w : CmdWord} (h : opField w = 3#2) : decode w = .rsv (dataField w) := by
  simp [decode, h]

theorem opField_cases (w : CmdWord) :
    opField w = 0#2 ∨ opField w = 1#2 ∨ opField w = 2#2 ∨ opField w = 3#2 := by
  bv_omega

/-- Whichever row of FEED a character has, the command carries that character (R46, R54). -/
@[simp] theorem decodeFeed_char (d : Byte) : (decodeFeed d).char? = some d := by
  unfold decodeFeed
  split_ifs <;> simp [Instr.char?, *]

/-- R48 (4): no FEED word is illegal. -/
theorem decode_char_of_op_feed {w : CmdWord} (h : opField w = 1#2) :
    (decode w).char? = some (dataField w) := by
  rw [decode_of_op_feed h, decodeFeed_char]

/-- R48 (1): RSV is the command of the words with op = 11, and of no other. -/
theorem decode_eq_rsv_iff (w : CmdWord) (d : Byte) :
    decode w = .rsv d ↔ opField w = 3#2 ∧ dataField w = d := by
  obtain h | h | h | h := opField_cases w
  · simp [decode_of_op_nop h, h]
  · have hne : decode w ≠ .rsv d := by
      intro hrsv
      -- A FEED carries a character, RSV carries none.
      have hchar := decode_char_of_op_feed h
      rw [hrsv] at hchar
      cases hchar
    simp [hne, h]
  · simp [decode_of_op_clr h, h]
  · simp [decode_of_op_rsv h, h]

/-- Settles O4: RSV is told by the `op` field alone, and the state after a command is `after`,
which reads no data bit of NOP, CLR and RSV. -/
theorem reservedAndIgnoredEncodings : Obligations.ReservedAndIgnoredEncodings := by
  refine ⟨fun w => ?rsvWords, fun d s => exec_eq_after (.rsv d) s, fun d d' s => ⟨?nop, ?clr⟩,
    ⟨by decide, by decide⟩, fun w => decode_char_of_op_feed⟩
  case rsvWords => simp [decode_eq_rsv_iff]
  case nop => rw [exec_eq_after, exec_eq_after, after, after]
  case clr => rw [exec_eq_after, exec_eq_after, after, after]

/-! ## The words of a FEEDS string (R51) -/

theorem decode_feedWord_char (d : Byte) : (decode (feedWord d)).char? = some d := by
  rw [feedWord, decode_char_of_op_feed (opField_mkWord 1#2 d), dataField_mkWord]

/-- The words of a FEEDS are the words of the FEED of each character, in order. -/
theorem feeds_words_eq_flatMap (t : List Byte) :
    (AsmLine.feeds t).words = t.flatMap fun d => (AsmLine.feed d).words :=
  List.map_eq_flatMap

/-- The words of a FEEDS carry the characters of its string, in order. -/
theorem feeds_words_char (t : List Byte) :
    (AsmLine.feeds t).words.map (fun w => (decode w).char?) = t.map some := by
  simp [AsmLine.words, decode_feedWord_char]

/-- Every escape of R51 is read once: `\r`, `\n`, `\\`, the escaped quote and `\x41`. -/
theorem parseLine_feeds_escapes :
    parseLine? "FEEDS \"\\r\\n\\\\\\\"\\x41\"".toList =
      some (some (.feeds [0x0D, 0x0A, 0x5C, 0x22, 0x41])) := by
  decide

/-- Settles O5: the words of a FEEDS are one FEED a character and carry those characters; the five
one-word pseudo-commands, and the line with the escapes, are computed. -/
theorem pseudoCommandsExpand : Obligations.PseudoCommandsExpand := by
  refine ⟨?oneWord, feeds_words_eq_flatMap, feeds_words_char, by decide, ?escapes⟩
  case oneWord => decide
  case escapes =>
    rw [assemble?, parseLine_feeds_escapes]
    rfl

end Sys2Proof.Machine
end

section
/-! The control commands NOP and RSV (rules R60, R63): their words, the idle step, and that no command
reads what they change. -/

namespace Sys2Proof.Machine

/-! ## The words of NOP and RSV (R45) -/

/-- A word with its fields in place is their weighted sum: `data` has 8 bits, so no carry. -/
theorem mkWord_eq_add (op : BitVec 2) (d : Byte) :
    mkWord op d = BitVec.ofNat 10 (256 * op.toNat) + d.setWidth 10 := by
  have hd := d.isLt
  have hword : (mkWord op d).toNat = 256 * op.toNat + d.toNat := by
    rw [mkWord, BitVec.toNat_append, ← Nat.shiftLeft_add_eq_or_of_lt hd, Nat.shiftLeft_eq,
      Nat.mul_comm]
  bv_omega

theorem decode_mkWord_nop (d : Byte) : decode (mkWord 0#2 d) = .nop d := by
  rw [decode_of_op_nop (opField_mkWord 0#2 d), dataField_mkWord]

theorem decode_mkWord_rsv (d : Byte) : decode (mkWord 3#2 d) = .rsv d := by
  rw [decode_of_op_rsv (opField_mkWord 3#2 d), dataField_mkWord]

/-! ## No command reads the result port -/

/-- A command overwrites the record of the step before and does not read it (R23). -/
theorem after_emit (i : Instr) (r : Option Result) (s : State) :
    after i (emit r s) = after i s := by
  -- Every arm begins with an `emit` of its own or sets the port last.
  cases i <;> rfl

/-- A command after NOP does what it does without the NOP (R60). -/
theorem after_after_nop (i : Instr) (d : Byte) (s : State) :
    after i (after (.nop d) s) = after i s :=
  after_emit i none s

/-- A command after RSV does what it does without the RSV, but that ILLCMD is 1 (R63). -/
theorem after_after_rsv (i : Instr) (d : Byte) (s : State) :
    after i (after (.rsv d) s) = { after i s with illcmd := true } := by
  calc after i (after (.rsv d) s)
      = after i { s with illcmd := true } := after_emit i none (raiseIllegalCommand s)
    _ = { after i s with illcmd := true } := by rw [after_illcmd_set, ite_self]

/-! ## Steps without `rst` (R22, R25) -/

/-- A step with `cmd_valid` = 0 takes its pins and does nothing else (R22, R60). -/
theorem stepped_of_no_command {s : State} (hr : (pinsNow s).rst = false)
    (hv : (pinsNow s).cmdValid = false) : stepped s = emit none (takePins s) := by
  have hword : decode (pinsNow s).word = .nop 0#8 := by
    simp only [Pins.word, hv, Bool.false_eq_true, if_false]
    exact decode_mkWord_nop 0#8
  rw [stepped_of_command hr, hword, after]

/-- Without `rst`, a step keeps ILLCMD at 1 (R21). -/
theorem stepped_illcmd_of_command {s : State} (hr : (pinsNow s).rst = false)
    (hi : s.illcmd = true) : (stepped s).illcmd = true := by
  rw [stepped_of_command hr, after_illcmd, takePins_illcmd, hi, ite_self]

/-- Settles O12: the state after NOP is the state before with no record on the port, and no command
reads the port, so an LF after NOP completes the terminator as it would have. -/
theorem nopChangesNothing : Obligations.NopChangesNothing := by
  refine ⟨fun d => ?words, fun d s => exec_eq_after (.nop d) s, fun s p rest hin hr hv => ?idle,
    fun d s t _ h => ?between⟩
  case words => exact mkWord_eq_add 0#2 d ▸ decode_mkWord_nop d
  case idle =>
    have hp : pinsNow s = p := by rw [pinsNow, hin, List.headD_cons]
    rw [step_eq_stepped, stepped_of_no_command (hp ▸ hr) (hp ▸ hv), takePins, hin]
    rfl
  case between =>
    rw [exec_eq_after] at h
    cases h
    rw [exec_eq_after, exec_eq_after, after_after_nop]

/-- Settles O14: the state after RSV differs from the state before in ILLCMD and the port alone, no
command reads either, and without `rst` ILLCMD stays 1. -/
theorem rsvOnlySetsIllcmd : Obligations.RsvOnlySetsIllcmd := by
  refine ⟨fun d => ?words, fun d s => exec_eq_after (.rsv d) s, fun s t hi hr h => ?sticky,
    fun d i s t u v hrsv hu hv => ?next⟩
  case words => exact mkWord_eq_add 3#2 d ▸ decode_mkWord_rsv d
  case sticky =>
    rw [step_eq_stepped] at h
    cases h
    exact stepped_illcmd_of_command hr hi
  case next =>
    rw [exec_eq_after] at hrsv hu hv
    cases hrsv
    cases hu
    cases hv
    exact after_after_rsv i d s

end Sys2Proof.Machine
end

section
/-! FEED as one state in each of its cases (rules R72 to R75), and the runs of the rules' examples. -/

namespace Sys2Proof.Machine

/-! ## Commits and the two fields a FEED writes besides (R70, R71) -/

/-- A commit does not read the result port. -/
theorem committed_emit (c : Byte) (r : Option Result) (s : State) :
    committed c (emit r s) = emit r (committed c s) := rfl

theorem heldCommitted_emit (r : Option Result) (s : State) :
    heldCommitted (emit r s) = emit r (heldCommitted s) := by
  cases h : s.crPend <;> simp [heldCommitted, h, committed_emit]

/-- A commit leaves a line that is not empty: LEN saturates and never wraps (R14). -/
theorem committed_len_ne_zero (c : Byte) (s : State) : (committed c s).len ≠ 0#8 := by
  simp only [committed]
  bv_omega

theorem updateNeedsCont_of_crPend {s : State} (h : s.crPend = true) :
    updateNeedsCont s = { s with needsCont := true } := by
  rw [updateNeedsCont, needsContOf, h, Bool.or_true]

theorem updateNeedsCont_of_len_ne_zero {s : State} (h : s.len ≠ 0#8) :
    updateNeedsCont s = { s with needsCont := true } := by
  rw [updateNeedsCont, needsContOf, bne_iff_ne.2 h, Bool.true_or]

/-- NEEDS_CONT is 0 once the line is cleared (R76). -/
theorem updateNeedsCont_clearLine (s : State) :
    updateNeedsCont (clearLine s) = { clearLine s with needsCont := false } := rfl

/-! ## The state after a FEED, in each case (R72 to R75) -/

/-- R72. -/
theorem fed_cr (s : State) :
    fed Config.cr s =
      { heldCommitted s with crPend := true, needsCont := true, out := none } := by
  rw [fed, fedCase_cr, updateNeedsCont_of_crPend rfl, heldCommitted_emit]
  rfl

/-- R74. -/
theorem fed_commits {d : Byte} {s : State} (hd : d ≠ Config.cr)
    (hlf : ¬ (d = Config.lf ∧ s.crPend = true)) :
    fed d s =
      { committed d { heldCommitted s with crPend := false } with
        needsCont := true, out := none } := by
  rw [fed, fedCase_commits (s := emit none s) hd hlf,
    updateNeedsCont_of_len_ne_zero (committed_len_ne_zero d _), heldCommitted_emit]
  rfl

/-- R73: the record is that of the state before. -/
theorem fed_completes {s : State} (hc : s.crPend = true) (hl : s.len ≠ 0#8) :
    fed Config.lf s = { clearLine s with needsCont := false, out := some (recordOf s) } := by
  rw [fed, fedCase_completes (s := emit none s) hc hl, updateNeedsCont_clearLine]
  -- `recordOf` does not read the port.
  rfl

/-- R75. -/
theorem fed_empty {s : State} (hc : s.crPend = true) (hl : s.len = 0#8) :
    fed Config.lf s = { clearLine s with needsCont := false, out := none } := by
  rw [fed, fedCase_empty (s := emit none s) hc hl, updateNeedsCont_clearLine]
  rfl

/-- A command that carries a character is a FEED of it, whichever its row (R46, R54). -/
theorem exec_feed {i : Instr} {d : Byte} (h : i.char? = some d) (s : State) :
    exec i s = .next (fed d s) := by
  rw [exec_eq_after, after_feed h]

/-! ## The states that the rules' examples reach from reset -/

/-- After `A`, CR, CR: the first CR is committed, the second held (R72). -/
def heldSecondCr : State :=
  { State.reset with
    lb := [(0, 0x41), (1, 0x0D)], len := 2, crPend := true, needsCont := true, talkBad := true,
    xacc := 0x0D }

/-- After `$`, CR, `G`: the CR is a character of the line (R74). -/
def crInsideLine : State :=
  { State.reset with
    lb := [(0, 0x24), (1, 0x0D), (2, 0x47)], len := 3, needsCont := true, talkBad := true,
    xacc := 0x4A }

/-- After `$GP*17` and a CR (R73). -/
def heldLeastLine : State :=
  { State.reset with
    lb := [(0, 0x24), (1, 0x47), (2, 0x50), (3, 0x2A), (4, 0x31), (5, 0x37)], len := 6,
    crPend := true, needsCont := true, starSeen := true, starIdx := 3, xacc := 0x17 }

theorem run_heldSecondCr :
    runWords [0x141, 0x10D, 0x10D] State.reset = some ([], heldSecondCr) := by decide

theorem run_crInsideLine :
    runWords [0x124, 0x10D, 0x147] State.reset = some ([], crInsideLine) := by decide

theorem run_heldLeastLine :
    runWords [0x124, 0x147, 0x150, 0x12A, 0x131, 0x137, 0x10D] State.reset =
      some ([], heldLeastLine) := by decide

/-- The LF that ends `$GP*17` emits the one record of that line (R73). -/
theorem run_lf_heldLeastLine :
    runWords [0x10A] heldLeastLine =
      some ([⟨.ok, 6, false, [0x24, 0x47, 0x50, 0x2A, 0x31, 0x37], 0x2A3137, 3, 1⟩],
        fed Config.lf heldLeastLine) := by decide

/-! ## The obligations -/

/-- Settles O16: a FEED of CR is `fed_cr`; the example ends in `heldSecondCr`. -/
theorem feedCrHoldsTheCr : Obligations.FeedCrHoldsTheCr := by
  refine ⟨fun i s hi => ?feed, heldSecondCr, run_heldSecondCr, by decide⟩
  case feed => rw [exec_feed hi, fed_cr]

/-- Settles O17: a FEED of the other characters is `fed_commits`; the example ends in
`crInsideLine`. -/
theorem feedCommitsOtherCharacters : Obligations.FeedCommitsOtherCharacters := by
  refine ⟨fun i d s hi hd hlf => ?feed, crInsideLine, run_crInsideLine, by decide⟩
  case feed => rw [exec_feed hi, fed_commits hd hlf]

/-- Settles O18: a FEED of LF with a held CR is `fed_completes` or `fed_empty`, by LEN, and the record
is that of `evaluate()` in the state before. -/
theorem feedLfCompletesTheTerminator : Obligations.FeedLfCompletesTheTerminator := by
  refine ⟨fun i s hi hc hl => ?line, fun i s hi hc hl => ?empty, heldLeastLine, _,
    run_heldLeastLine, by decide, by decide, by decide, by decide, run_lf_heldLeastLine, by decide⟩
  case line =>
    refine ⟨recordOf s, evaluate_ok s, ?_⟩
    rw [exec_feed hi, fed_completes hc hl]
    rfl
  case empty =>
    rw [exec_feed hi, fed_empty hc hl]
    rfl

/-- Settles O19: `fed_empty` names every field that changes; the example is computed. -/
theorem emptyLinesAreDropped : Obligations.EmptyLinesAreDropped := by
  refine ⟨fun i s hi hc hl => ?empty, by decide⟩
  case empty =>
    rw [exec_feed hi, fed_empty hc hl]
    exact ⟨_, rfl, rfl, rfl, rfl, rfl, rfl, rfl, rfl, rfl, rfl, rfl⟩

end Sys2Proof.Machine
end

section
/-! The four checks of a line's text (rules R92 to R95) and the registers' answers to them, and the
verdict as the first check that fails (rule R91). -/

namespace Sys2Proof.Machine

/-! ## The checks by the index of the first `*` (R94, R95) -/

theorem firstStar_lt {t : List Byte} (h : Config.star ∈ t) : Source.firstStar t < t.length :=
  List.idxOf_lt_length_of_mem h

/-- No `*` stands below the first one. -/
theorem getElem?_ne_star_of_lt {t : List Byte} {j : Nat} (h : j < Source.firstStar t) :
    t[j]? ≠ some Config.star := by
  have hne := List.not_of_lt_findIdx h
  intro hj
  obtain ⟨_, hstar⟩ := List.getElem?_eq_some_iff.1 hj
  simp [hstar] at hne

theorem firstStarAt_iff {t : List Byte} {k : Nat} :
    FirstStarAt t k ↔ Config.star ∈ t ∧ Source.firstStar t = k := by
  constructor
  · rintro ⟨hk, hmin⟩
    have hmem : Config.star ∈ t := List.mem_of_getElem? hk
    have hle : Source.firstStar t ≤ k := Nat.le_of_not_lt fun h => getElem?_ne_star_of_lt h hk
    have hge : k ≤ Source.firstStar t :=
      Nat.le_of_not_lt fun h => hmin _ h (List.getElem?_idxOf hmem)
    exact ⟨hmem, Nat.le_antisymm hle hge⟩
  · rintro ⟨hmem, rfl⟩
    exact ⟨List.getElem?_idxOf hmem, fun _ => getElem?_ne_star_of_lt⟩

theorem checkField_iff_firstStar {t : List Byte} :
    CheckField t ↔ Config.star ∈ t ∧ Source.firstStar t + 1 < t.length := by
  simp [CheckField, firstStarAt_iff, and_assoc]

theorem checkChecksum_iff_firstStar {t : List Byte} :
    CheckChecksum t ↔
      Config.star ∈ t ∧ t.length = Source.firstStar t + 3 ∧
        fold (t.getD (Source.firstStar t + 1) 0#8) = hexdig (hiNibble (Source.computedChecksum t)) ∧
        fold (t.getD (Source.firstStar t + 2) 0#8) =
          hexdig (loNibble (Source.computedChecksum t)) := by
  constructor
  · rintro ⟨k, a, b, hk, hlen, ha, hb, hhi, hlo⟩
    obtain ⟨hmem, rfl⟩ := firstStarAt_iff.1 hk
    rw [List.getD_eq_getElem?_getD, List.getD_eq_getElem?_getD, ha, hb]
    exact ⟨hmem, hlen, hhi, hlo⟩
  · rintro ⟨hmem, hlen, hhi, hlo⟩
    have hget (i : Nat) (hi : i < t.length) : t[i]? = some (t.getD i 0#8) := by simp [hi]
    exact ⟨_, _, _, firstStarAt_iff.2 ⟨hmem, rfl⟩, hlen, hget _ (by omega), hget _ (by omega),
      hhi, hlo⟩

/-! ## What the registers say of each check (R20, R100) -/

section
variable {s : State} {t : List Byte}

theorem Holds.checkLength_iff (h : Holds s t) : CheckLength t ↔ ¬ 82#8 < s.len := by
  have hlen := h.len
  rw [CheckLength, BitVec.lt_def, BitVec.toNat_ofNat]
  omega

theorem Holds.checkTalker_iff (h : Holds s t) :
    CheckTalker t ↔ ¬ (s.talkBad = true ∨ s.len < 3#8) := by
  have hlen : s.len < 3#8 ↔ ¬ 3 ≤ t.length := by
    have hlen := h.len
    rw [BitVec.lt_def, BitVec.toNat_ofNat]
    omega
  rw [h.talkBad, hlen, CheckTalker]
  match t with
  | [] | [_] | [_, _] => simp
  | a :: b :: c :: rest =>
    have hmin : min (a :: b :: c :: rest).length 3 = 3 := by simp
    simp only [hmin, Nat.exists_lt_succ_left]
    simp

/-- On a line that passes check (b), STAR_IDX is the index of the first `*` (R18). -/
theorem Holds.starIdx_eq (h : Holds s t) (hb : CheckLength t) (hm : Config.star ∈ t) :
    s.starIdx.toNat = Source.firstStar t := by
  have hlt := firstStar_lt hm
  have hle : t.length ≤ 82 := hb
  rw [h.starIdx, if_pos hm]
  omega

theorem Holds.len_eq_length (h : Holds s t) (hb : CheckLength t) : s.len.toNat = t.length := by
  have hle : t.length ≤ 82 := hb
  rw [h.len]
  omega

theorem Holds.checkField_iff (h : Holds s t) (hb : CheckLength t) :
    CheckField t ↔ ¬ (¬ s.starSeen = true ∨ s.starIdx = s.len - 1#8) := by
  rw [checkField_iff_firstStar, h.starSeen, not_or, not_not]
  refine and_congr_right fun hm => ?_
  have hidx := h.starIdx_eq hb hm
  have hlen := h.len_eq_length hb
  have hlt := firstStar_lt hm
  bv_omega

/-- On a line that passes check (b) and has a `*`, R100's `LEN - STAR_IDX - 1` does not wrap: it is
2 exactly when two characters follow the first `*`. -/
theorem Holds.fieldLength_eq_two_iff (h : Holds s t) (hb : CheckLength t) (hm : Config.star ∈ t) :
    fieldLength s = 2#8 ↔ t.length = Source.firstStar t + 3 := by
  have hidx := h.starIdx_eq hb hm
  have hlen := h.len_eq_length hb
  have hlt := firstStar_lt hm
  have hle : t.length ≤ 82 := hb
  rw [fieldLength]
  bv_omega

/-- Every character of a line that passes check (b) is stored: 82 is at most LINE_CAP (R6). -/
theorem Holds.read_eq (h : Holds s t) (hb : CheckLength t) {i : Nat} (hi : i < t.length) :
    s.lb.read i = t.getD i 0#8 := by
  have hcap := s.cfg.lineCap_ge
  have hle : t.length ≤ 82 := hb
  exact h.stored i (by omega)

theorem Holds.checkChecksum_iff (h : Holds s t) (hb : CheckLength t) (hc : CheckField t) :
    CheckChecksum t ↔ fieldMatches s = true := by
  obtain ⟨hm, _⟩ := checkField_iff_firstStar.1 hc
  have hidx := h.starIdx_eq hb hm
  simp only [checkChecksum_iff_firstStar, fieldMatches, Bool.and_eq_true, beq_iff_eq, and_assoc,
    hm, true_and, h.fieldLength_eq_two_iff hb hm, h.xacc]
  refine and_congr_right fun hlen => ?_
  have hle : t.length ≤ 82 := hb
  have hidx1 : (s.starIdx + 1#8).toNat = Source.firstStar t + 1 := by bv_omega
  have hidx2 : (s.starIdx + 2#8).toNat = Source.firstStar t + 2 := by bv_omega
  rw [hidx1, hidx2, h.read_eq hb (by omega), h.read_eq hb (by omega)]

/-! ## The verdict (R91) -/

/-- The five verdicts of a line, each with the checks that pass and the first that fails. -/
theorem Holds.verdictIs_cases (h : Holds s t) :
    (verdictIs s = .badTalker ∧ ¬ CheckTalker t) ∨
    (verdictIs s = .tooLong ∧ CheckTalker t ∧ ¬ CheckLength t) ∨
    (verdictIs s = .missingChecksum ∧ CheckTalker t ∧ CheckLength t ∧ ¬ CheckField t) ∨
    (verdictIs s = .checksumMismatch ∧
      CheckTalker t ∧ CheckLength t ∧ CheckField t ∧ ¬ CheckChecksum t) ∨
    (verdictIs s = .ok ∧ CheckTalker t ∧ CheckLength t ∧ CheckField t ∧ CheckChecksum t) := by
  rw [verdictIs]
  split_ifs with ha hb hc hd
  · exact .inl ⟨rfl, fun hT => h.checkTalker_iff.1 hT ha⟩
  all_goals have hT := h.checkTalker_iff.2 ha
  · exact .inr (.inl ⟨rfl, hT, fun hL => h.checkLength_iff.1 hL hb⟩)
  all_goals have hL := h.checkLength_iff.2 hb
  · exact .inr (.inr (.inl ⟨rfl, hT, hL, fun hF => (h.checkField_iff hL).1 hF hc⟩))
  all_goals have hF := (h.checkField_iff hL).2 hc
  · exact .inr (.inr (.inr (.inr ⟨rfl, hT, hL, hF, (h.checkChecksum_iff hL hF).2 hd⟩)))
  · exact .inr (.inr (.inr (.inl
      ⟨rfl, hT, hL, hF, fun hC => hd ((h.checkChecksum_iff hL hF).1 hC)⟩)))

end

/-- Settles O27: `evaluate()` answers `recordOf`, whose verdict is one of the five of
`Holds.verdictIs_cases`; the five exclude each other. -/
theorem firstFailingCheckIsTheVerdict : Obligations.FirstFailingCheckIsTheVerdict := by
  intro s t ht _
  refine ⟨recordOf s, evaluate_ok s, ?_⟩
  have hverdict : (recordOf s).verdict = verdictIs s := rfl
  rw [hverdict]
  obtain ⟨hv, hT⟩ | ⟨hv, hT, hL⟩ | ⟨hv, hT, hL, hF⟩ | ⟨hv, hT, hL, hF, hC⟩ | ⟨hv, hT, hL, hF, hC⟩ :=
    ht.toHolds.verdictIs_cases
  · simp [hv, hT]
  · simp [hv, hT, hL]
  · simp [hv, hT, hL, hF]
  · simp [hv, hT, hL, hF, hC]
  · simp [hv, hT, hL, hF, hC]

end Sys2Proof.Machine
end

section
/-! The reset step with its pins named (rules R130, R133). -/

namespace Sys2Proof.Machine

/-- R133: of the pins of a reset step only `rst` is read; the pins to come stay. -/
theorem step_cons_of_reset (s : State) {p : Pins} (rest : List Pins) (hp : p.rst = true) :
    step { s with input := p :: rest } = .next (hardReset { s with input := rest }) := by
  rw [step_eq_stepped, stepped_of_reset (s := { s with input := p :: rest }) hp]
  rfl

/-- Settles O8: by `step_cons_of_reset` both steps answer one and the same `hardReset`, which clears
the registers named. -/
theorem resetIgnoresTheCommand : Obligations.ResetIgnoresTheCommand := by
  intro s p q rest hp hq
  have hstep := step_cons_of_reset s rest hp
  refine ⟨?sameNext, hardReset { s with input := rest }, hstep, ?cleared⟩
  case sameNext => rw [hstep, step_cons_of_reset s rest hq]
  case cleared =>
    exact ⟨hardReset_len _, hardReset_crPend _, hardReset_out _, hardReset_illcmd _⟩

end Sys2Proof.Machine
end

section
/-! Encoding against decoding (rules R45, R48, R54), the row that the opcode table gives a word, and
the words written out in the spec. -/

namespace Sys2Proof.Machine

/-! ## Words made and taken apart (R45) -/

/-- A word is made of its two fields. -/
theorem mkWord_fields (w : CmdWord) : mkWord (opField w) (dataField w) = w := by
  rw [mkWord, opField, dataField, BitVec.extractLsb'_append_extractLsb'_eq_extractLsb' (by rfl)]
  exact BitVec.extractLsb'_eq_self

theorem decode_mkWord_feed (d : Byte) : decode (mkWord 1#2 d) = decodeFeed d := by
  rw [decode_of_op_feed (opField_mkWord 1#2 d), dataField_mkWord]

theorem decode_mkWord_clr (d : Byte) : decode (mkWord 2#2 d) = .clr d := by
  rw [decode_of_op_clr (opField_mkWord 2#2 d), dataField_mkWord]

/-- R54: a character with no row of its own is fed by the general row. -/
theorem decodeFeed_of_wf {d : Byte} (h : (Instr.feed d).wf = true) : decodeFeed d = .feed d := by
  simp only [Instr.wf, hasOwnRow, Bool.not_eq_true', Bool.or_eq_false_iff,
    beq_eq_false_iff_ne] at h
  obtain ⟨⟨⟨hcr, hlf⟩, hstar⟩, hcomma⟩ := h
  rw [decodeFeed, if_neg hcr, if_neg hlf, if_neg hstar, if_neg hcomma]

/-- R47: whichever row of FEED a character has, its word is the FEED word of the character. -/
theorem encode_decodeFeed (d : Byte) : encode (decodeFeed d) = mkWord 1#2 d := by
  unfold decodeFeed
  split_ifs <;> simp [encode, *]

/-- R54: the decoder answers the general row only for characters with no row of their own. -/
theorem decodeFeed_wf (d : Byte) : (decodeFeed d).wf = true := by
  unfold decodeFeed
  split_ifs <;> simp [Instr.wf, hasOwnRow, *]

theorem decode_encode {i : Instr} (h : i.wf = true) : decode (encode i) = i := by
  cases i with
  | nop d => exact decode_mkWord_nop d
  | clr d => exact decode_mkWord_clr d
  | rsv d => exact decode_mkWord_rsv d
  | feed d => rw [encode, decode_mkWord_feed, decodeFeed_of_wf h]
  | feedCr | feedLf | feedStar | feedComma => rw [encode, decode_mkWord_feed]; decide

theorem encode_decode (w : CmdWord) : encode (decode w) = w := by
  obtain h | h | h | h := opField_cases w
  · rw [decode_of_op_nop h, encode, ← h, mkWord_fields]
  · rw [decode_of_op_feed h, encode_decodeFeed, ← h, mkWord_fields]
  · rw [decode_of_op_clr h, encode, ← h, mkWord_fields]
  · rw [decode_of_op_rsv h, encode, ← h, mkWord_fields]

theorem decode_wf (w : CmdWord) : (decode w).wf = true := by
  obtain h | h | h | h := opField_cases w
  · rw [decode_of_op_nop h, Instr.wf]
  · rw [decode_of_op_feed h, decodeFeed_wf]
  · rw [decode_of_op_clr h, Instr.wf]
  · rw [decode_of_op_rsv h, Instr.wf]

/-- Settles O1: a word is made of its two fields, and `decode` goes by `op`. -/
theorem decodeAndEncodeAgree : Obligations.DecodeAndEncodeAgree :=
  ⟨fun _ => decode_encode, fun w => ⟨encode_decode w, decode_wf w⟩⟩

/-! ## The opcode table (R54) -/

/-- The opcode table gives the word of every well-formed command its own row. -/
theorem rowOfEncoding (i : Instr) : Laws.RowOfEncoding.Statement i := by
  cases i with
  | nop d => exact Laws.RowOfEncoding.nop d
  | feed d => exact Laws.RowOfEncoding.feed d
  | feedCr => exact Laws.RowOfEncoding.feedCr
  | feedLf => exact Laws.RowOfEncoding.feedLf
  | feedStar => exact Laws.RowOfEncoding.feedStar
  | feedComma => exact Laws.RowOfEncoding.feedComma
  | clr d => exact Laws.RowOfEncoding.clr d
  | rsv d => exact Laws.RowOfEncoding.rsv d

/-- Settles O2: every word is the word of its own well-formed command. -/
theorem decodeFollowsTheOpcodeTable : Obligations.DecodeFollowsTheOpcodeTable := by
  intro w
  have h := rowOfEncoding (decode w) (decode_wf w)
  rwa [encode_decode] at h

/-- Settles O3: twelve closed words, computed. -/
theorem writtenOutWordsDecode : Obligations.WrittenOutWordsDecode := by
  unfold Obligations.WrittenOutWordsDecode
  decide

/-! ## The text of a command sequence (R50) -/

/-- Settles O6: three closed texts, computed. -/
theorem notationAssembles : Obligations.NotationAssembles := by
  unfold Obligations.NotationAssembles
  decide

/-! ## The digits of a checksum (R95, R97, R98) -/

theorem hexdig_toNat (n : BitVec 4) :
    (hexdig n).toNat = if n.toNat < 10 then 0x30 + n.toNat else 0x57 + n.toNat := by
  revert n
  decide

theorem fold_toNat (c : Byte) :
    (fold c).toNat = if 0x41 ≤ c.toNat ∧ c.toNat ≤ 0x5A then c.toNat + 0x20 else c.toNat := by
  simp only [fold, BitVec.le_def, BitVec.toNat_ofNat]
  split_ifs <;> simp only [BitVec.toNat_add, BitVec.toNat_ofNat]
  omega

/-- R98: the characters that match the digit of a nibble are that digit in either case. -/
theorem fold_eq_hexdig_iff (c : Byte) (n : BitVec 4) :
    fold c = hexdig n ↔
      (n.toNat < 10 ∧ c.toNat = 0x30 + n.toNat) ∨
      (10 ≤ n.toNat ∧ (c.toNat = 0x57 + n.toNat ∨ c.toNat = 0x37 + n.toNat)) := by
  have hn := n.isLt
  rw [← BitVec.toNat_inj, fold_toNat, hexdig_toNat]
  split_ifs <;> omega

/-- Settles O34: a folded character and a digit compared as numbers; three closed renderings. -/
theorem checksumDigits : Obligations.ChecksumDigits :=
  ⟨fold_eq_hexdig_iff, by decide, by decide, by decide⟩

end Sys2Proof.Machine
end

section
/-! The frame of every command (rules R16, R24, R48, R70 to R76): which fields it reads, which it
leaves, and what a step does with its pins. -/

namespace Sys2Proof.Machine

@[simp] theorem lf_ne_cr : Config.lf ≠ Config.cr := by decide

/-! ## The fields a commit leaves alone, and those it does not read (R71) -/

@[simp] theorem committed_crPend (c : Byte) (s : State) : (committed c s).crPend = s.crPend := rfl
@[simp] theorem committed_freeCount (c : Byte) (s : State) :
    (committed c s).freeCount = s.freeCount := rfl

theorem heldCommitted_of_crPend {s : State} (h : s.crPend = true) :
    heldCommitted s = committed Config.cr s := if_pos h

theorem heldCommitted_of_not_crPend {s : State} (h : s.crPend = false) : heldCommitted s = s :=
  if_neg (by simp [h])

@[simp] theorem heldCommitted_freeCount (s : State) :
    (heldCommitted s).freeCount = s.freeCount := by
  cases h : s.crPend <;> simp [heldCommitted, h]

theorem heldCommitted_input_set (s : State) (ps : List Pins) :
    heldCommitted { s with input := ps } = { heldCommitted s with input := ps } := by
  cases h : s.crPend <;> simp [heldCommitted, h, committed]

/-! ## FEED, case by case (R72 to R75) -/

/-- The four cases of FEED, the state after in each. -/
theorem fed_cases (d : Byte) (s : State) :
    (d = Config.cr ∧
      fed d s = { heldCommitted s with crPend := true, needsCont := true, out := none }) ∨
    (d = Config.lf ∧ s.crPend = true ∧ s.len ≠ 0#8 ∧
      fed d s = { clearLine s with needsCont := false, out := some (recordOf s) }) ∨
    (d = Config.lf ∧ s.crPend = true ∧ s.len = 0#8 ∧
      fed d s = { clearLine s with needsCont := false, out := none }) ∨
    (d ≠ Config.cr ∧ ¬ (d = Config.lf ∧ s.crPend = true) ∧
      fed d s =
        { committed d { heldCommitted s with crPend := false } with
          needsCont := true, out := none }) := by
  obtain ⟨rfl, _⟩ | ⟨rfl, hc, hl, _⟩ | ⟨rfl, hc, hl, _⟩ | ⟨hd, hlf, _⟩ := fedCase_cases d s
  · exact .inl ⟨rfl, fed_cr s⟩
  · exact .inr (.inl ⟨rfl, hc, hl, fed_completes hc hl⟩)
  · exact .inr (.inr (.inl ⟨rfl, hc, hl, fed_empty hc hl⟩))
  · exact .inr (.inr (.inr ⟨hd, hlf, fed_commits hd hlf⟩))

/-- A FEED does not read the pins to come. -/
theorem fed_input_set (d : Byte) (s : State) (ps : List Pins) :
    fed d { s with input := ps } = { fed d s with input := ps } := by
  obtain ⟨rfl, h⟩ | ⟨rfl, hc, hl, h⟩ | ⟨rfl, hc, hl, h⟩ | ⟨hd, hlf, h⟩ := fed_cases d s
  · rw [h, fed_cr, heldCommitted_input_set]
  · rw [h, fed_completes (s := { s with input := ps }) hc hl]
    rfl
  · rw [h, fed_empty (s := { s with input := ps }) hc hl]
    rfl
  · rw [h, fed_commits (s := { s with input := ps }) hd hlf, heldCommitted_input_set]
    rfl

theorem fed_freeCount (d : Byte) (s : State) : (fed d s).freeCount = s.freeCount := by
  obtain ⟨_, h⟩ | ⟨_, _, _, h⟩ | ⟨_, _, _, h⟩ | ⟨_, _, h⟩ := fed_cases d s <;> simp [h]

/-- CR_PEND after a FEED: 1 exactly after CR (R72 to R74). -/
theorem fed_crPend (d : Byte) (s : State) : (fed d s).crPend = decide (d = Config.cr) := by
  obtain ⟨rfl, h⟩ | ⟨rfl, _, _, h⟩ | ⟨rfl, _, _, h⟩ | ⟨hd, _, h⟩ := fed_cases d s
  · simp [h]
  · simp [h]
  · simp [h]
  · simp [h, hd]

/-- R76: after a completed terminator the line is empty and NEEDS_CONT is 0; after every other FEED
NEEDS_CONT is 1, and a CR is held or a character was committed. -/
theorem fed_needsCont (d : Byte) (s : State) :
    (d = Config.lf ∧ s.crPend = true ∧ (fed d s).needsCont = false ∧ (fed d s).len = 0#8 ∧
      (fed d s).crPend = false) ∨
    (¬ (d = Config.lf ∧ s.crPend = true) ∧ (fed d s).needsCont = true ∧
      ((fed d s).len ≠ 0#8 ∨ (fed d s).crPend = true)) := by
  obtain ⟨rfl, h⟩ | ⟨hd, hc, _, h⟩ | ⟨hd, hc, _, h⟩ | ⟨_, hlf, h⟩ := fed_cases d s
  · exact .inr ⟨fun hd => absurd hd.1 (by decide), by rw [h], .inr (by rw [h])⟩
  · exact .inl ⟨hd, hc, by simp [h]⟩
  · exact .inl ⟨hd, hc, by simp [h]⟩
  · exact .inr ⟨hlf, by rw [h], .inl (by rw [h]; exact committed_len_ne_zero d _)⟩

/-! ## Every command -/

theorem after_input_set (i : Instr) (s : State) (ps : List Pins) :
    after i { s with input := ps } = { after i s with input := ps } := by
  cases i with
  | nop | clr | rsv => rfl
  | _ => exact fed_input_set _ s ps

@[simp] theorem after_input (i : Instr) (s : State) : (after i s).input = s.input :=
  congrArg (·.input) (after_input_set i s s.input)

@[simp] theorem after_freeCount (i : Instr) (s : State) : (after i s).freeCount = s.freeCount := by
  cases i with
  | nop | clr | rsv => rfl
  | _ => exact fed_freeCount _ s

/-- The held CR after a command: a FEED holds a CR or none, CLR drops it, NOP and RSV keep it. -/
def crPendAfter (i : Instr) (crPend : Bool) : Bool :=
  match i.char? with
  | some d => decide (d = Config.cr)
  | none =>
    match i with
    | .clr _ => false
    | _ => crPend

theorem after_crPend (i : Instr) (s : State) : (after i s).crPend = crPendAfter i s.crPend := by
  cases i with
  | nop | clr | rsv => rfl
  | _ => exact fed_crPend _ s

/-- The commands that are no FEED (R60, R61, R63). -/
theorem control_cases {i : Instr} (h : i.char? = none) :
    (∃ d, i = .nop d) ∨ (∃ d, i = .clr d) ∨ ∃ d, i = .rsv d := by
  cases i with
  | nop d => exact .inl ⟨d, rfl⟩
  | clr d => exact .inr (.inl ⟨d, rfl⟩)
  | rsv d => exact .inr (.inr ⟨d, rfl⟩)
  | _ => cases h

/-- R45: a command whose word has op = 10 is CLR. -/
theorem eq_clr_of_opField {i : Instr} (h : opField (encode i) = 2#2) : ∃ d, i = .clr d := by
  cases i with
  | clr d => exact ⟨d, rfl⟩
  | _ => rw [encode, opField_mkWord] at h; exact absurd h (by decide)

/-! ## One step, its pins given (R22, R25) -/

/-- The state after a step that takes the pins `p`. -/
def stepOf (p : Pins) (s : State) : State :=
  if p.rst then hardReset s else after (decode p.word) s

theorem stepped_eq_stepOf (s : State) : stepped s = stepOf (pinsNow s) (takePins s) := rfl

theorem stepOf_of_reset {p : Pins} (h : p.rst = true) (s : State) : stepOf p s = hardReset s :=
  if_pos h

theorem stepOf_of_command {p : Pins} (h : p.rst = false) (s : State) :
    stepOf p s = after (decode p.word) s := if_neg (by simp [h])

/-- A step reads no pins but its own. -/
theorem stepOf_input_set (p : Pins) (s : State) (ps : List Pins) :
    stepOf p { s with input := ps } = { stepOf p s with input := ps } := by
  cases h : p.rst with
  | false => rw [stepOf_of_command h, stepOf_of_command h, after_input_set]
  | true => rw [stepOf_of_reset h, stepOf_of_reset h]; rfl

@[simp] theorem stepOf_cfg (p : Pins) (s : State) : (stepOf p s).cfg = s.cfg := by
  cases h : p.rst with
  | false => rw [stepOf_of_command h, after_cfg]
  | true => rw [stepOf_of_reset h, hardReset_cfg]

theorem stepped_input (s : State) : (stepped s).input = s.input.tail := by
  rw [stepped_eq_stepOf, takePins, stepOf_input_set]

/-- Settles O7: the step of the pins `p` is that of `p.word`, which is the NOP word for idle
pins. -/
theorem stepExecutesTheWordTaken : Obligations.StepExecutesTheWordTaken := by
  refine ⟨fun s p rest hin hr => ⟨fun hv => ?valid, fun hv => ?idle⟩, fun s hin => ?noPins⟩
  case valid =>
    simp [step, pinsNow, takePins, hin, hr, Pins.word, hv]
  case idle =>
    simp [step, pinsNow, takePins, hin, hr, Pins.word, hv, nopWord]
  case noPins =>
    have htake : takePins s = s := by rw [takePins, hin, List.tail_nil, ← hin]
    simp [step, pinsNow, hin, htake, Pins.word, Pins.idle, nopWord]

/-- Settles O11: a command answers `after` and a step `stepped`, in every state. -/
theorem noCommandStops : Obligations.NoCommandStops :=
  ⟨fun i s => ⟨after i s, exec_eq_after i s, after_cfg i s, after_input i s, after_freeCount i s⟩,
    fun s => ⟨stepped s, step_eq_stepped s, stepped_cfg s, stepped_input s⟩⟩

/-! ## Reset (R26, R130) -/

/-- Settles O9: a reset step is `hardReset`. -/
theorem resetStepClearsEveryRegister : Obligations.ResetStepClearsEveryRegister := by
  intro s p rest hin hp
  have hstep : step s = .next (hardReset { s with input := rest }) := by
    rw [← step_cons_of_reset s rest hp, ← hin]
  exact ⟨_, hstep, rfl, rfl, rfl, rfl, rfl, rfl, rfl, rfl, rfl, rfl, rfl, rfl⟩

/-- Settles O10: the fields of one closed state. -/
theorem resetStateHasTheResetValues : Obligations.ResetStateHasTheResetValues :=
  ⟨rfl, rfl, rfl, rfl, rfl, rfl, rfl, rfl, rfl, rfl⟩

/-! ## CLR, and the control commands' frame (R60, R61, R63) -/

theorem after_clr (d : Byte) (s : State) :
    after (.clr d) s =
      { s with len := 0#8, crPend := false, needsCont := false, talkBad := false,
               starSeen := false, starIdx := 0#8, xacc := 0#8, out := none } := rfl

/-- After a CLR, LF is an ordinary character at index 0 (R61, R74). -/
theorem fed_lf_after_clr {s : State} (hwf : s.lb.wf = true) (d : Byte) :
    (fed Config.lf (after (.clr d) s)).len = 1#8 ∧
      (fed Config.lf (after (.clr d) s)).lb.read 0 = Config.lf ∧
      (fed Config.lf (after (.clr d) s)).out = none := by
  have hcap := s.cfg.lineCap_ge
  rw [fed_commits (by decide) (by simp [after_clr]), heldCommitted_of_not_crPend rfl, after_clr]
  simp [committed, Memory.read_write_same hwf, show 0 < s.cfg.lineCap by omega]

/-- Settles O13: CLR is `after_clr`, which drops a held CR, so a following LF is committed. -/
theorem clrDiscardsTheLine : Obligations.ClrDiscardsTheLine := by
  refine ⟨fun d => ?words, fun d s => exec_eq_after (.clr d) s, fun d d' s t h => ?idempotent,
    fun d s t hwf h => ?lf⟩
  case words => exact mkWord_eq_add 2#2 d ▸ decode_mkWord_clr d
  case idempotent =>
    rw [exec_eq_after] at h
    cases h
    rw [exec_eq_after, after_clr, after_clr]
  case lf =>
    rw [exec_eq_after] at h
    cases h
    exact ⟨_, exec_feed rfl _, fed_lf_after_clr hwf d⟩

/-- Settles O25: the three commands' states, field by field. -/
theorem controlCommandsFrame : Obligations.ControlCommandsFrame := by
  intro i s t hi h
  rw [exec_eq_after] at h
  cases h
  refine ⟨?lb, after_cfg i s, after_input i s, after_freeCount i s, ?out, ?line, ?illcmd⟩
  case illcmd =>
    intro hop
    rw [after_illcmd, if_neg hop]
  all_goals obtain ⟨d, rfl⟩ | ⟨d, rfl⟩ | ⟨d, rfl⟩ := control_cases hi
  case line.inr.inl => exact fun hop => absurd (opField_mkWord 2#2 d) hop
  all_goals simp [after]

/-! ## Rows of FEED (R54) -/

/-- Settles O20: a row of FEED is FEED of its character. -/
theorem specialRowsAreFeed : Obligations.SpecialRowsAreFeed := by
  intro s
  have row {i : Instr} {d : Byte} (h : i.char? = some d) : exec i s = exec (.feed d) s := by
    rw [exec_feed h, exec_feed rfl]
  exact ⟨row rfl, row rfl, row rfl, row rfl⟩

/-! ## NEEDS_CONT (R76) -/

/-- Settles O21: the two cases of `fed_needsCont`. -/
theorem needsContAfterFeed : Obligations.NeedsContAfterFeed := by
  intro i d s t hi h
  rw [exec_feed hi] at h
  cases h
  obtain ⟨hd, hc, hn, hlen, hcr⟩ | ⟨hlf, hn, hline⟩ := fed_needsCont d s
  · exact ⟨by simp [hn, hlen, hcr], iff_of_true hn ⟨hd, hc⟩⟩
  · exact ⟨by simp only [hn, hline], by simpa [hn] using hlf⟩

end Sys2Proof.Machine
end

section
/-! The source's `validate` by the four checks (rules R91 to R99), and the record of a line as a
function of its text (rules R100 to R106). -/

namespace Sys2Proof.Machine

/-! ## `validate` by the check that decides it (R91, R99) -/

theorem checkTalker_iff_take {t : List Byte} :
    CheckTalker t ↔ t.take Config.talker.length = Config.talker := by
  match t with
  | [] | [_] | [_, _] => simp [CheckTalker]
  | a :: b :: c :: rest => simp [CheckTalker]

theorem map_fold_eq_pair_iff {u : List Byte} {x y : Byte} :
    u.map fold = [x, y] ↔
      u.length = 2 ∧ fold (u.getD 0 0#8) = x ∧ fold (u.getD 1 0#8) = y := by
  match u with
  | [] | [_] => simp
  | [a, b] => simp
  | _ :: _ :: _ :: _ => simp

/-- R95: for a line with a `*`, check (d) compares the folded field with the rendering. -/
theorem checkChecksum_iff_render {t : List Byte} (hm : Config.star ∈ t) :
    CheckChecksum t ↔
      (Source.checksumField t).map fold = renderChecksum (Source.computedChecksum t) := by
  have hlt := firstStar_lt hm
  have hlen : t.length - (Source.firstStar t + 1) = 2 ↔ t.length = Source.firstStar t + 3 := by
    omega
  rw [checkChecksum_iff_firstStar, renderChecksum, map_fold_eq_pair_iff, Source.checksumField,
    List.length_drop, hlen]
  simp [hm, add_assoc]

/-- The sentence that `validate` answers for a line that passes all checks (R99, R101). -/
def sentenceOf (t : List Byte) : Source.Sentence where
  talker := Config.talker
  typeCode := (t.drop Config.typeOff).take Config.typeLen
  fields := Source.splitFields (t.take (Source.firstStar t))
  text := t

section
variable {t : List Byte}

theorem validate_badTalker (ha : ¬ CheckTalker t) : Source.validate t = .error .badTalker :=
  if_pos fun h => ha (checkTalker_iff_take.2 h)

theorem validate_tooLong (ha : CheckTalker t) (hb : ¬ CheckLength t) :
    Source.validate t = .error .tooLong := by
  rw [Source.validate, if_neg (not_not.2 (checkTalker_iff_take.1 ha)), if_pos (Nat.lt_of_not_le hb)]

/-- Check (c) as `validate` tests it (R94). -/
theorem checkField_iff_validate :
    CheckField t ↔ ¬ (Config.star ∉ t ∨ Source.firstStar t = t.length - 1) := by
  rw [checkField_iff_firstStar, not_or, not_not]
  refine and_congr_right fun hm => ?_
  have hlt := firstStar_lt hm
  omega

theorem validate_missingChecksum (ha : CheckTalker t) (hb : CheckLength t) (hc : ¬ CheckField t) :
    Source.validate t = .error .missingChecksum := by
  rw [Source.validate, if_neg (not_not.2 (checkTalker_iff_take.1 ha)), if_neg (Nat.not_lt.2 hb),
    if_pos (not_not.1 (mt checkField_iff_validate.2 hc))]

theorem validate_checksumMismatch (ha : CheckTalker t) (hb : CheckLength t) (hc : CheckField t)
    (hd : ¬ CheckChecksum t) : Source.validate t = .error .checksumMismatch := by
  have hm := (checkField_iff_firstStar.1 hc).1
  rw [Source.validate, if_neg (not_not.2 (checkTalker_iff_take.1 ha)), if_neg (Nat.not_lt.2 hb),
    if_neg (checkField_iff_validate.1 hc), if_pos (mt (checkChecksum_iff_render hm).2 hd)]

theorem validate_ok (ha : CheckTalker t) (hb : CheckLength t) (hc : CheckField t)
    (hd : CheckChecksum t) : Source.validate t = .ok (sentenceOf t) := by
  have hm := (checkField_iff_firstStar.1 hc).1
  rw [Source.validate, if_neg (not_not.2 (checkTalker_iff_take.1 ha)), if_neg (Nat.not_lt.2 hb),
    if_neg (checkField_iff_validate.1 hc), if_neg (not_not.2 ((checkChecksum_iff_render hm).1 hd))]
  rfl

/-- The five answers of `validate`, each with the checks that pass and the first that fails. -/
theorem validate_cases (t : List Byte) :
    (Source.validate t = .error .badTalker ∧ ¬ CheckTalker t) ∨
    (Source.validate t = .error .tooLong ∧ CheckTalker t ∧ ¬ CheckLength t) ∨
    (Source.validate t = .error .missingChecksum ∧
      CheckTalker t ∧ CheckLength t ∧ ¬ CheckField t) ∨
    (Source.validate t = .error .checksumMismatch ∧
      CheckTalker t ∧ CheckLength t ∧ CheckField t ∧ ¬ CheckChecksum t) ∨
    (Source.validate t = .ok (sentenceOf t) ∧
      CheckTalker t ∧ CheckLength t ∧ CheckField t ∧ CheckChecksum t) := by
  by_cases ha : CheckTalker t
  swap; · exact .inl ⟨validate_badTalker ha, ha⟩
  by_cases hb : CheckLength t
  swap; · exact .inr (.inl ⟨validate_tooLong ha hb, ha, hb⟩)
  by_cases hc : CheckField t
  swap; · exact .inr (.inr (.inl ⟨validate_missingChecksum ha hb hc, ha, hb, hc⟩))
  by_cases hd : CheckChecksum t
  swap; · exact .inr (.inr (.inr (.inl ⟨validate_checksumMismatch ha hb hc hd, ha, hb, hc, hd⟩)))
  exact .inr (.inr (.inr (.inr ⟨validate_ok ha hb hc hd, ha, hb, hc, hd⟩)))

theorem verdict_of_validate_error {e : Source.ValidationError} (h : Source.validate t = .error e) :
    Source.verdict t = e.verdict := by rw [Source.verdict, h]

theorem verdict_of_validate_ok {z : Source.Sentence} (h : Source.validate t = .ok z) :
    Source.verdict t = .ok := by rw [Source.verdict, h]

theorem verdict_eq_ok_iff :
    Source.verdict t = .ok ↔ CheckTalker t ∧ CheckLength t ∧ CheckField t ∧ CheckChecksum t := by
  obtain ⟨h, ha⟩ | ⟨h, _, hb⟩ | ⟨h, _, _, hc⟩ | ⟨h, _, _, _, hd⟩ | ⟨h, hall⟩ := validate_cases t
  · simp [verdict_of_validate_error h, Source.ValidationError.verdict, ha]
  · simp [verdict_of_validate_error h, Source.ValidationError.verdict, hb]
  · simp [verdict_of_validate_error h, Source.ValidationError.verdict, hc]
  · simp [verdict_of_validate_error h, Source.ValidationError.verdict, hd]
  · exact iff_of_true (verdict_of_validate_ok h) hall

end

/-! ## The record of a line as a function of its text (R100 to R103) -/

/-- R103: one field more than there are commas. -/
theorem splitFields_length (t : List Byte) :
    (Source.splitFields t).length = 1 + t.count Config.comma := by
  induction t with
  | nil => rfl
  | cons c cs ih =>
    rw [Source.splitFields]
    split_ifs with hc
    · rw [List.length_cons, ih, hc, List.count_cons_self]
      omega
    · rw [List.count_cons_of_ne hc, ← ih]
      split
      · rename_i h
        rw [h, List.length_nil] at ih
        omega
      · rename_i h
        rw [h, List.length_cons, List.length_cons]

/-- The record of a completed line with the text `t`, LINE_CAP being that of `cfg`. -/
def lineRecord (cfg : Config) (t : List Byte) : Result where
  verdict := Source.verdict t
  len := BitVec.ofNat 8 (min t.length 255)
  trunc := decide (cfg.lineCap < t.length)
  text := t.take cfg.lineCap
  typeCode := if Source.verdict t = .ok then t.getD 3 0 ++ t.getD 4 0 ++ t.getD 5 0 else 0
  star := if Source.verdict t = .ok then BitVec.ofNat 8 (Source.firstStar t) else 0
  nfields :=
    if Source.verdict t = .ok then
      BitVec.ofNat 7 (Source.splitFields (t.take (Source.firstStar t))).length
    else 0

/-- What a line that passes all checks looks like (R105 (1)). -/
theorem shape_of_ok {t : List Byte} (h : Source.verdict t = .ok) :
    Config.star ∈ t ∧ t.length = Source.firstStar t + 3 ∧ t.length ≤ 82 ∧
      3 ≤ Source.firstStar t := by
  obtain ⟨⟨_, h0, h1, h2⟩, hb, _, hd⟩ := verdict_eq_ok_iff.1 h
  obtain ⟨hm, hlen, _⟩ := checkChecksum_iff_firstStar.1 hd
  refine ⟨hm, hlen, hb, ?_⟩
  -- The characters of the talker are no `*`.
  have hstar : t[Source.firstStar t]? = some Config.star := List.getElem?_idxOf hm
  by_contra hlt
  have hk : Source.firstStar t = 0 ∨ Source.firstStar t = 1 ∨ Source.firstStar t = 2 := by omega
  rcases hk with hk | hk | hk <;> rw [hk] at hstar
  · exact absurd (hstar.symm.trans h0) (by decide)
  · exact absurd (hstar.symm.trans h1) (by decide)
  · exact absurd (hstar.symm.trans h2) (by decide)

section
variable {s : State} {t : List Byte}

/-- The verdict over the registers is the source's verdict on the text (R100). -/
theorem Holds.verdictIs_eq (h : Holds s t) : verdictIs s = Source.verdict t := by
  obtain ⟨hv, ha⟩ | ⟨hv, ha, hb⟩ | ⟨hv, ha, hb, hc⟩ | ⟨hv, ha, hb, hc, hd⟩ |
    ⟨hv, ha, hb, hc, hd⟩ := h.verdictIs_cases
  · rw [hv, verdict_of_validate_error (validate_badTalker ha)]; rfl
  · rw [hv, verdict_of_validate_error (validate_tooLong ha hb)]; rfl
  · rw [hv, verdict_of_validate_error (validate_missingChecksum ha hb hc)]; rfl
  · rw [hv, verdict_of_validate_error (validate_checksumMismatch ha hb hc hd)]; rfl
  · rw [hv, verdict_of_validate_ok (validate_ok ha hb hc hd)]

/-- LB holds the first characters of the line, as many as are stored. -/
theorem Holds.map_read_eq (h : Holds s t) {n : Nat} (hn : n ≤ min t.length s.cfg.lineCap) :
    ((List.range n).map fun i => s.lb.read i) = t.take n := by
  refine List.ext_getElem (by simp; omega) fun i hi _ => ?_
  have hit : i < t.length := by simp at hi; omega
  rw [List.getElem_map, List.getElem_range, List.getElem_take,
    h.stored i (by simp at hi; omega), List.getD_eq_getElem _ _ hit]

theorem Holds.storedCount_eq (h : Holds s t) : storedCount s = min t.length s.cfg.lineCap := by
  have hcap := s.cfg.lineCap_le
  rw [storedCount, h.len]
  omega

theorem Holds.textOf_eq (h : Holds s t) : textOf s = t.take s.cfg.lineCap := by
  rw [textOf, h.map_read_eq h.storedCount_eq.le, h.storedCount_eq, min_comm]
  exact List.take_eq_take_min.symm

/-- LINE_CAP is below LEN's bound, so a saturated LEN still says whether the text was cut (R14). -/
theorem Holds.lineCap_lt_len_iff (h : Holds s t) :
    s.cfg.lineCap < s.len.toNat ↔ s.cfg.lineCap < t.length := by
  have hcap := s.cfg.lineCap_le
  rw [h.len]
  omega

theorem Holds.len_eq_ofNat (h : Holds s t) : s.len = BitVec.ofNat 8 (min t.length 255) := by
  rw [← h.len, BitVec.ofNat_toNat, BitVec.setWidth_eq]

/-- `evaluate()` sees nothing of a state but its parameter and the line it holds. -/
theorem Holds.recordOf_eq (h : Holds s t) : recordOf s = lineRecord s.cfg t := by
  simp only [recordOf, lineRecord, h.verdictIs_eq, h.textOf_eq, h.lineCap_lt_len_iff,
    ← h.len_eq_ofNat]
  by_cases hv : Source.verdict t = .ok
  · obtain ⟨hm, hlen, hle, hstar⟩ := shape_of_ok hv
    have hcap := s.cfg.lineCap_ge
    have hidx := h.starIdx_eq hle hm
    have hsi : s.starIdx = BitVec.ofNat 8 (Source.firstStar t) := by
      rw [← hidx, BitVec.ofNat_toNat, BitVec.setWidth_eq]
    simp only [if_pos hv, h.read_eq hle (show 3 < t.length by omega),
      h.read_eq hle (show 4 < t.length by omega), h.read_eq hle (show 5 < t.length by omega),
      hidx, h.map_read_eq (show Source.firstStar t ≤ min t.length s.cfg.lineCap by omega),
      splitFields_length, packType]
    rw [hsi]
    rfl
  · simp only [if_neg hv]

end

/-! ## The parts of the record of a line -/

section
variable {cfg : Config} {t : List Byte}

theorem lineRecord_len_toNat : (lineRecord cfg t).len.toNat = min t.length 255 := by
  rw [lineRecord, BitVec.toNat_ofNat]
  omega

/-- R102: the record of a line with an error has none of the parts of a sentence. -/
theorem lineRecord_of_error (h : Source.verdict t ≠ .ok) :
    (lineRecord cfg t).typeCode = 0 ∧ (lineRecord cfg t).star = 0 ∧
      (lineRecord cfg t).nfields = 0 :=
  ⟨if_neg h, if_neg h, if_neg h⟩

/-- R101 to R103: the record of a valid line. -/
theorem lineRecord_of_ok (h : Source.verdict t = .ok) :
    (lineRecord cfg t).typeCode = t.getD 3 0 ++ t.getD 4 0 ++ t.getD 5 0 ∧
      (lineRecord cfg t).star.toNat = Source.firstStar t ∧
      (lineRecord cfg t).nfields.toNat =
        (Source.splitFields (t.take (Source.firstStar t))).length := by
  obtain ⟨_, hlen, hle, _⟩ := shape_of_ok h
  have hcount : (t.take (Source.firstStar t)).count Config.comma ≤ Source.firstStar t :=
    List.count_le_length.trans (List.length_take_le _ _)
  refine ⟨if_pos h, ?star, ?nfields⟩
  case star =>
    have hs : (lineRecord cfg t).star = BitVec.ofNat 8 (Source.firstStar t) := if_pos h
    rw [hs, BitVec.toNat_ofNat]
    omega
  case nfields =>
    have hn : (lineRecord cfg t).nfields =
        BitVec.ofNat 7 (Source.splitFields (t.take (Source.firstStar t))).length := if_pos h
    rw [hn, splitFields_length, BitVec.toNat_ofNat]
    omega

/-- R101: `$GP` is followed by the type code, three characters by position. -/
theorem sentenceOf_typeCode (h : 6 ≤ t.length) :
    (sentenceOf t).typeCode = [t.getD 3 0, t.getD 4 0, t.getD 5 0] := by
  match t with
  | a :: b :: c :: d :: e :: f :: rest => simp [sentenceOf]
  | [] | [_] | [_, _] | [_, _, _] | [_, _, _, _] | [_, _, _, _, _] => simp at h

theorem lineRecord_text_of_ok (h : Source.verdict t = .ok) : (lineRecord cfg t).text = t := by
  obtain ⟨_, _, hle, _⟩ := shape_of_ok h
  have hcap := cfg.lineCap_ge
  exact List.take_of_length_le (by omega)

end

/-- A record that `evaluate()` answers is that of the line the state holds. -/
theorem Holds.eq_lineRecord {s : State} {t : List Byte} {r : Result} (h : Holds s t)
    (hr : evaluate s = .ok r) : r = lineRecord s.cfg t := by
  rw [evaluate_ok, h.recordOf_eq] at hr
  cases hr
  rfl

/-! ## The obligations -/

/-- Settles O28: the record is `lineRecord`, each of whose parts is a function of the text. -/
theorem evaluateIsValidate : Obligations.EvaluateIsValidate := by
  intro s t h
  refine ⟨lineRecord s.cfg t, by rw [evaluate_ok, h.toHolds.recordOf_eq], lineRecord_len_toNat, rfl,
    rfl, fun z hz => ?ok, fun e he => ?error⟩
  case ok =>
    have hv := verdict_of_validate_ok hz
    obtain ⟨ha, hb, hc, hd⟩ := verdict_eq_ok_iff.1 hv
    obtain ⟨_, hlen, _, hstar⟩ := shape_of_ok hv
    obtain ⟨htype, hidx, hfields⟩ := lineRecord_of_ok (cfg := s.cfg) hv
    rw [validate_ok ha hb hc hd] at hz
    cases hz
    exact ⟨hv, rfl, lineRecord_text_of_ok hv, rfl, sentenceOf_typeCode (by omega), htype, hidx,
      by omega, hfields⟩
  case error =>
    have hv := verdict_of_validate_error he
    exact ⟨hv, lineRecord_of_error (by rw [hv]; cases e <;> decide)⟩

/-- Settles O29: an emitted record is that of the line held. -/
theorem noErrorIsPromoted : Obligations.NoErrorIsPromoted := by
  intro i s u t r h hu hr
  rw [exec_eq_after] at hu
  cases hu
  have hrec : r = lineRecord s.cfg t := by
    rw [after_out] at hr
    split_ifs at hr
    rw [← h.toHolds.recordOf_eq]
    exact (Option.some.inj hr).symm
  subst hrec
  exact ⟨verdict_eq_ok_iff.1, lineRecord_of_error⟩

/-- A digit of the checksum field is no `*` (R98). -/
theorem ne_star_of_fold_eq_hexdig {c : Byte} {n : BitVec 4} (h : fold c = hexdig n) :
    c ≠ Config.star := by
  rintro rfl
  have hn := n.isLt
  obtain ⟨_, hc⟩ | ⟨_, hc | hc⟩ := (fold_eq_hexdig_iff _ _).1 h <;> simp at hc <;> omega

/-- Neither character of the checksum field of a valid line is a `*` (R105 (1)). -/
theorem field_ne_star_of_ok {t : List Byte} (h : Source.verdict t = .ok) :
    t[Source.firstStar t + 1]? ≠ some Config.star ∧
      t[Source.firstStar t + 2]? ≠ some Config.star := by
  obtain ⟨_, _, _, hd⟩ := verdict_eq_ok_iff.1 h
  obtain ⟨_, hlen, hhi, hlo⟩ := checkChecksum_iff_firstStar.1 hd
  have hget (i : Nat) (hi : i < t.length) : t[i]? = some (t.getD i 0#8) := by simp [hi]
  rw [hget _ (by omega), hget _ (by omega)]
  exact ⟨fun he => ne_star_of_fold_eq_hexdig hhi (Option.some.inj he),
    fun he => ne_star_of_fold_eq_hexdig hlo (Option.some.inj he)⟩

/-- Settles O30: the shape follows from check (d), and with (a) to (c) given the verdict is OK exactly
when (d) passes. -/
theorem validLinesHaveTheirShape : Obligations.ValidLinesHaveTheirShape := by
  intro s t r h hr
  obtain rfl := h.toHolds.eq_lineRecord hr
  refine ⟨fun hv => ?shape, fun ha hb hc => ?iff⟩
  case shape =>
    obtain ⟨hm, hlen, hle, hstar⟩ := shape_of_ok hv
    obtain ⟨h1, h2⟩ := field_ne_star_of_ok hv
    have hk : t.length - 3 = Source.firstStar t := by omega
    have hk1 : t.length - 2 = Source.firstStar t + 1 := by omega
    have hk2 : t.length - 1 = Source.firstStar t + 2 := by omega
    rw [hk, hk1, hk2]
    exact ⟨by omega, hle, firstStarAt_iff.2 ⟨hm, rfl⟩, h1, h2⟩
  case iff =>
    have hm := (checkField_iff_firstStar.1 hc).1
    have hverdict : (lineRecord s.cfg t).verdict = Source.verdict t := rfl
    rw [hverdict, verdict_eq_ok_iff, ← checkChecksum_iff_render hm]
    simp [ha, hb, hc]

/-- Settles O32: check (b) fails, so the verdict is that of (a) or of (b). -/
theorem overlongLinesNeverValidate : Obligations.OverlongLinesNeverValidate := by
  intro s t h hlong
  have hb : ¬ CheckLength t := Nat.not_le.2 hlong
  refine ⟨lineRecord s.cfg t, by rw [evaluate_ok, h.toHolds.recordOf_eq], ?verdict, rfl,
    lineRecord_len_toNat, decide_eq_true_iff, fun hcap hlen ha => ⟨?_, ?_, ?_, ?_⟩⟩
  case verdict =>
    by_cases ha : CheckTalker t
    · exact .inr (verdict_of_validate_error (validate_tooLong ha hb))
    · exact .inl (verdict_of_validate_error (validate_badTalker ha))
  · exact verdict_of_validate_error (validate_tooLong ha hb)
  · simp [lineRecord, hlen]
  · simp [lineRecord, hlen, hcap]
  · simp [lineRecord, hcap]

/-- Settles O33: of `lineRecord` only `trunc` and `text` read the parameter. -/
theorem lineCapOnlyCutsTheText : Obligations.LineCapOnlyCutsTheText := by
  intro s1 s2 t r1 r2 h1 h2 hr1 hr2
  obtain rfl := h1.toHolds.eq_lineRecord hr1
  obtain rfl := h2.toHolds.eq_lineRecord hr2
  exact ⟨rfl, rfl, rfl, rfl, rfl⟩

end Sys2Proof.Machine
end

section
/-! A valid line with one character changed (rule R105 (3)). -/

namespace Sys2Proof.Machine

/-! ## The computed checksum of a changed line (R96) -/

/-- The exclusive-or of the same characters tells two starting values apart. -/
theorem foldl_xor8_injective (l : List Byte) : Function.Injective fun a => l.foldl xor8 a := by
  induction l with
  | nil => exact fun _ _ h => h
  | cons x l ih => exact fun a b h => BitVec.xor_left_inj x |>.1 (ih h)

/-- Changing one character changes the exclusive-or. -/
theorem foldl_xor8_set_ne {l : List Byte} {j : Nat} {c : Byte} (hj : j < l.length)
    (hc : l[j]? ≠ some c) (a : Byte) : (l.set j c).foldl xor8 a ≠ l.foldl xor8 a := by
  induction l generalizing j a with
  | nil => simp at hj
  | cons x l ih =>
    cases j with
    | zero =>
      intro h
      have hx : c = x := (BitVec.xor_right_inj a).1 (foldl_xor8_injective l h)
      exact hc (by simp [hx])
    | succ j => exact ih (by simpa using hj) (by simpa using hc) (xor8 a x)

theorem hexdig_injective : Function.Injective hexdig := by
  intro m n h
  have hm := m.isLt
  have hn := n.isLt
  have h := congrArg BitVec.toNat h
  rw [hexdig_toNat, hexdig_toNat] at h
  apply BitVec.eq_of_toNat_eq
  split_ifs at h <;> omega

theorem nibbles_append (x : Byte) : hiNibble x ++ loNibble x = x := by
  rw [hiNibble, loNibble, BitVec.extractLsb'_append_extractLsb'_eq_extractLsb' (by rfl)]
  exact BitVec.extractLsb'_eq_self

/-- The two digits of a checksum determine it (R97). -/
theorem eq_of_hexdig_eq {x y : Byte} (hhi : hexdig (hiNibble x) = hexdig (hiNibble y))
    (hlo : hexdig (loNibble x) = hexdig (loNibble y)) : x = y := by
  rw [← nibbles_append x, hexdig_injective hhi, hexdig_injective hlo, nibbles_append]

/-! ## The checks on a changed line -/

section
variable {t : List Byte} {k i : Nat} {c : Byte}

theorem FirstStarAt.lt_length (h : FirstStarAt t k) : k < t.length :=
  (List.getElem?_eq_some_iff.1 h.1).1

theorem FirstStarAt.unique {j : Nat} (hj : FirstStarAt t j) (hk : FirstStarAt t k) : j = k :=
  (firstStarAt_iff.1 hj).2.symm.trans (firstStarAt_iff.1 hk).2

theorem not_checkTalker_set (h : CheckTalker t) (hi : i < 3) (hc : t[i]? ≠ some c) :
    ¬ CheckTalker (t.set i c) := by
  rintro ⟨_, g0, g1, g2⟩
  obtain ⟨hlen, h0, h1, h2⟩ := h
  -- The character at index `i` is the talker's, so `c` is not.
  have hset : (t.set i c)[i]? = some c := List.getElem?_set_self (by omega)
  obtain rfl | rfl | rfl : i = 0 ∨ i = 1 ∨ i = 2 := by omega
  · exact hc (h0.trans (g0.symm.trans hset))
  · exact hc (h1.trans (g1.symm.trans hset))
  · exact hc (h2.trans (g2.symm.trans hset))

theorem checkTalker_set (h : CheckTalker t) (hi : 3 ≤ i) : CheckTalker (t.set i c) := by
  obtain ⟨hlen, h0, h1, h2⟩ := h
  refine ⟨by rwa [List.length_set], ?_, ?_, ?_⟩ <;> rw [List.getElem?_set_ne (by omega)] <;>
    assumption

/-- A new `*` before the first one is the first one of the changed line. -/
theorem firstStarAt_set_star (h : FirstStarAt t k) (hi : i < k) :
    FirstStarAt (t.set i Config.star) i := by
  have hlt := h.lt_length
  refine ⟨List.getElem?_set_self (by omega), fun j hj => ?_⟩
  rw [List.getElem?_set_ne (by omega)]
  exact h.2 j (by omega)

/-- Another character before the first `*` leaves the first `*` where it is. -/
theorem firstStarAt_set (h : FirstStarAt t k) (hi : i < k) (hc : c ≠ Config.star) :
    FirstStarAt (t.set i c) k := by
  have hlt := h.lt_length
  refine ⟨by rw [List.getElem?_set_ne (by omega), h.1], fun j hj => ?_⟩
  by_cases hij : i = j
  · rw [hij, List.getElem?_set_self (by omega)]
    exact fun he => hc (Option.some.inj he)
  · rw [List.getElem?_set_ne hij]
    exact h.2 j hj

/-- A change between the first character and the first `*` changes the computed checksum. -/
theorem checksum_region_set_ne (hi : 0 < i) (hk : i < k) (hlen : k ≤ t.length)
    (hc : t[i]? ≠ some c) :
    (((t.set i c).take k).drop 1).foldl xor8 0#8 ≠ ((t.take k).drop 1).foldl xor8 0#8 := by
  rw [List.take_set, List.drop_set, if_neg (by omega)]
  refine foldl_xor8_set_ne ?_ ?_ _
  · rw [List.length_drop, List.length_take]
    omega
  · rw [List.getElem?_drop, List.getElem?_take_of_lt (by omega), show 1 + (i - 1) = i by omega]
    exact hc

/-- The declared checksum of a valid line does not match the changed line: either the field has
another length, or it has the same characters and the computed checksum is another. -/
theorem not_checkChecksum_set (hd : CheckChecksum t) (h : FirstStarAt t k) (hi : 3 ≤ i)
    (hk : i < k) (hc : t[i]? ≠ some c) : ¬ CheckChecksum (t.set i c) := by
  rintro ⟨j, a', b', hj, hlen', ha', hb', hhi', hlo'⟩
  obtain ⟨k', a, b, hk', hlen, ha, hb, hhi, hlo⟩ := hd
  obtain rfl := hk'.unique h
  rw [List.length_set] at hlen'
  by_cases hstar : c = Config.star
  · subst hstar
    have hji := hj.unique (firstStarAt_set_star h hk)
    omega
  · obtain rfl := hj.unique (firstStarAt_set h hk hstar)
    rw [List.getElem?_set_ne (by omega)] at ha' hb'
    obtain rfl := Option.some.inj (ha.symm.trans ha')
    obtain rfl := Option.some.inj (hb.symm.trans hb')
    exact checksum_region_set_ne (by omega) hk (by omega) hc
      (eq_of_hexdig_eq (hhi'.symm.trans hhi) (hlo'.symm.trans hlo))

theorem checkField_set (hf : CheckField t) (h : FirstStarAt t k) (hk : i < k) :
    CheckField (t.set i c) := by
  obtain ⟨k', hk', hlen⟩ := hf
  obtain rfl := hk'.unique h
  by_cases hstar : c = Config.star
  · subst hstar
    exact ⟨i, firstStarAt_set_star h hk, by rw [List.length_set]; omega⟩
  · exact ⟨k', firstStarAt_set h hk hstar, by rwa [List.length_set]⟩

/-- With its one `*` changed, a valid line has none (R105 (1)). -/
theorem not_checkField_set_star (hv : Source.verdict t = .ok) (h : FirstStarAt t k)
    (hc : t[k]? ≠ some c) : ¬ CheckField (t.set k c) := by
  obtain ⟨_, hlen, _, _⟩ := shape_of_ok hv
  obtain ⟨h1, h2⟩ := field_ne_star_of_ok hv
  obtain ⟨_, rfl⟩ := firstStarAt_iff.1 h
  rintro ⟨j, ⟨hj, _⟩, hjlen⟩
  rw [List.length_set] at hjlen
  by_cases hkj : Source.firstStar t = j
  · subst hkj
    rw [List.getElem?_set_self (by omega), ← h.1] at hj
    exact hc hj.symm
  · rw [List.getElem?_set_ne hkj] at hj
    obtain hlt | rfl | rfl : j < Source.firstStar t ∨ j = Source.firstStar t + 1 ∨
        j = Source.firstStar t + 2 := by omega
    · exact h.2 j hlt hj
    · exact h1 hj
    · exact h2 hj

/-- R105 (3): the verdict of a valid line with the character at `i` changed, `i` at most the index
of its first `*`. -/
theorem verdict_set (hv : Source.verdict t = .ok) (h : FirstStarAt t k) (hi : i ≤ k)
    (hc : t[i]? ≠ some c) :
    Source.verdict (t.set i c) =
      if i < 3 then .badTalker else if i < k then .checksumMismatch else .missingChecksum := by
  obtain ⟨ha, hb, hf, hd⟩ := verdict_eq_ok_iff.1 hv
  have hb' : CheckLength (t.set i c) := by rwa [CheckLength, List.length_set]
  split_ifs with h3 hk
  · exact verdict_of_validate_error (validate_badTalker (not_checkTalker_set ha h3 hc))
  · exact verdict_of_validate_error (validate_checksumMismatch (checkTalker_set ha (by omega)) hb'
      (checkField_set hf h hk) (not_checkChecksum_set hd h (by omega) hk hc))
  · obtain rfl : i = k := by omega
    exact verdict_of_validate_error (validate_missingChecksum (checkTalker_set ha (by omega)) hb'
      (not_checkField_set_star hv h hc))

end

/-- Settles O31: the record of the changed line has the verdict of its text, which is
`verdict_set`. -/
theorem changedCharactersAreCaught : Obligations.ChangedCharactersAreCaught := by
  intro s t k i c r hv h hi hc ht hr
  obtain rfl := ht.toHolds.eq_lineRecord hr
  exact verdict_set hv h hi hc

end Sys2Proof.Machine
end

section
/-! What a FEED stores and counts (rules R14, R42, R71), and the phase table (rule R77). -/

namespace Sys2Proof.Machine

/-! ## The store of a commit (R41, R42, R71) -/

theorem committed_len_toNat (c : Byte) (s : State) :
    (committed c s).len.toNat = min (s.len.toNat + 1) 255 := by
  simp only [committed, BitVec.toNat_ofNat]
  omega

/-- A commit changes LB at `storeIndex` at most. -/
theorem committed_read_other (c : Byte) {s : State} {a : Nat} (h : storeIndex s ≠ some a) :
    (committed c s).lb.read a = s.lb.read a := by
  simp only [committed]
  split_ifs with hlt
  · have ha : a ≠ s.len.toNat := fun he => h (by rw [storeIndex, if_pos hlt, he])
    exact Memory.read_write_other s.lb c ha
  · rfl

/-- At LINE_CAP or above, a commit stores nothing and is too late for the talker (R42). -/
theorem committed_of_full {s : State} (c : Byte) (h : s.cfg.lineCap ≤ s.len.toNat) :
    (committed c s).lb = s.lb ∧ (committed c s).talkBad = s.talkBad ∧
      (committed c s).xacc =
        if s.starSeen = false ∧ c ≠ Config.star then s.xacc ^^^ c else s.xacc := by
  have hcap := s.cfg.lineCap_ge
  have h0 : s.len ≠ 0#8 := by bv_omega
  have h1 : s.len ≠ 1#8 := by bv_omega
  have h2 : s.len ≠ 2#8 := by bv_omega
  refine ⟨if_neg (by omega), ?_, ?_⟩ <;> simp [committed, h0, h1, h2]

@[simp] theorem fed_illcmd (d : Byte) (s : State) : (fed d s).illcmd = s.illcmd :=
  congrArg (·.illcmd) (fed_illcmd_set d s s.illcmd)

@[simp] theorem fed_input (d : Byte) (s : State) : (fed d s).input = s.input :=
  congrArg (·.input) (fed_input_set d s s.input)

/-- LF with a held CR leaves LB (R73). -/
theorem fed_lf_lb {s : State} (hc : s.crPend = true) : (fed Config.lf s).lb = s.lb := by
  by_cases hl : s.len = 0#8
  · rw [fed_empty hc hl, clearLine_lb]
  · rw [fed_completes hc hl, clearLine_lb]

theorem fed_cr_lb (s : State) : (fed Config.cr s).lb = (heldCommitted s).lb := by
  rw [fed_cr]

theorem fed_commits_lb {d : Byte} {s : State} (hd : d ≠ Config.cr)
    (hlf : ¬ (d = Config.lf ∧ s.crPend = true)) :
    (fed d s).lb = (committed d (heldCommitted s)).lb := by
  rw [fed_commits hd hlf]
  -- A commit does not read CR_PEND.
  rfl

/-- Settles O24: with no CR held the FEED is one commit, at an index where nothing is stored; `trunc`
is read off `recordOf`. -/
theorem unstoredCharactersAreCounted : Obligations.UnstoredCharactersAreCounted := by
  refine ⟨fun i d s t hi hd hc hfull h => ?full, fun s r h => ?trunc⟩
  case full =>
    rw [exec_feed hi] at h
    cases h
    obtain ⟨hlb, htalk, hxacc⟩ := committed_of_full d hfull
    have hset : ({ s with crPend := false } : State) = s := by rw [← hc]
    rw [fed_commits hd (by simp [hc]), heldCommitted_of_not_crPend hc, hset]
    exact ⟨hlb, committed_len_toNat d s, htalk, rfl, rfl, hxacc, rfl, rfl⟩
  case trunc =>
    rw [evaluate_ok] at h
    cases h
    exact decide_eq_true_iff

/-- Settles O26: LB after a FEED is that of the commits of its case, and a commit stores at
`storeIndex` alone. -/
theorem feedFrame : Obligations.FeedFrame := by
  intro i d s t hi h
  rw [exec_feed hi] at h
  cases h
  refine ⟨fed_illcmd d s, fed_cfg d s, fed_input d s, fed_freeCount d s,
    fun hd hc a => ?terminator, fun hd hc a => ?firstCr, fun hd hc a ha => ?secondCr,
    fun hd hc a ha => ?single, fun hd hlf hc s1 h1 a ha ha1 => ?double⟩
  case terminator => rw [hd, fed_lf_lb hc]
  case firstCr => rw [hd, fed_cr_lb, heldCommitted_of_not_crPend hc]
  case secondCr => rw [hd, fed_cr_lb, heldCommitted_of_crPend hc, committed_read_other _ ha]
  case single =>
    rw [fed_commits_lb hd (by simp [hc]), heldCommitted_of_not_crPend hc,
      committed_read_other d ha]
  case double =>
    rw [append_ok] at h1
    cases h1
    rw [fed_commits_lb hd (fun he => hlf he.1), heldCommitted_of_crPend hc,
      committed_read_other d ha1, committed_read_other _ ha]

/-! ## The phase table (R77) -/

/-- The four phases, by LEN and CR_PEND. -/
theorem phaseOf_cases (s : State) :
    (s.len = 0#8 ∧ s.crPend = false ∧ phaseOf s = .empty) ∨
    (s.len ≠ 0#8 ∧ s.crPend = false ∧ phaseOf s = .text) ∨
    (s.len = 0#8 ∧ s.crPend = true ∧ phaseOf s = .cr0) ∨
    (s.len ≠ 0#8 ∧ s.crPend = true ∧ phaseOf s = .crN) := by
  rw [phaseOf]
  by_cases hl : s.len = 0#8
  · rw [beq_iff_eq.2 hl]
    cases hc : s.crPend <;> simp [hl]
  · rw [beq_eq_false_iff_ne.2 hl]
    cases hc : s.crPend <;> simp [hl]

theorem phaseOf_eq_crN_iff (s : State) : phaseOf s = .crN ↔ s.len ≠ 0#8 ∧ s.crPend = true := by
  obtain ⟨hl, hc, h⟩ | ⟨hl, hc, h⟩ | ⟨hl, hc, h⟩ | ⟨hl, hc, h⟩ := phaseOf_cases s <;>
    simp [h, hl, hc]

theorem phaseOf_eq_cr0_iff (s : State) : phaseOf s = .cr0 ↔ s.len = 0#8 ∧ s.crPend = true := by
  obtain ⟨hl, hc, h⟩ | ⟨hl, hc, h⟩ | ⟨hl, hc, h⟩ | ⟨hl, hc, h⟩ := phaseOf_cases s <;>
    simp [h, hl, hc]

theorem phaseOf_eq_text_iff (s : State) :
    phaseOf s = .text ↔ s.len ≠ 0#8 ∧ s.crPend = false := by
  obtain ⟨hl, hc, h⟩ | ⟨hl, hc, h⟩ | ⟨hl, hc, h⟩ | ⟨hl, hc, h⟩ := phaseOf_cases s <;>
    simp [h, hl, hc]

theorem phaseOf_eq_empty_iff (s : State) :
    phaseOf s = .empty ↔ s.len = 0#8 ∧ s.crPend = false := by
  obtain ⟨hl, hc, h⟩ | ⟨hl, hc, h⟩ | ⟨hl, hc, h⟩ | ⟨hl, hc, h⟩ := phaseOf_cases s <;>
    simp [h, hl, hc]

theorem phaseAfter_of_char {i : Instr} {d : Byte} (h : i.char? = some d) (p : Phase) :
    phaseAfter p i = phaseAfter p (.feed d) := by
  simp only [phaseAfter, h]
  rfl

theorem tableLen_of_char {i : Instr} {d : Byte} (h : i.char? = some d) (p : Phase) (n : Nat) :
    tableLen p i n = tableLen p (.feed d) n := by
  simp only [tableLen, h]
  rfl

/-- The table's entry for phase and LEN after a FEED of `d`. -/
def FollowsTable (d : Byte) (s : State) : Prop :=
  phaseOf (fed d s) = phaseAfter (phaseOf s) (.feed d) ∧
    (fed d s).len.toNat = min (tableLen (phaseOf s) (.feed d) s.len.toNat) 255

/-- The row of CR (R72). -/
theorem followsTable_cr (s : State) : FollowsTable Config.cr s := by
  have hlen : (fed Config.cr s).len = (heldCommitted s).len := by rw [fed_cr]
  have hcr : (fed Config.cr s).crPend = true := by rw [fed_cr]
  have hlt := s.len.isLt
  rw [FollowsTable]
  obtain ⟨hl, hc, h⟩ | ⟨hl, hc, h⟩ | ⟨hl, hc, h⟩ | ⟨hl, hc, h⟩ := phaseOf_cases s
  · rw [heldCommitted_of_not_crPend hc, hl] at hlen
    rw [h, hlen]
    exact ⟨(phaseOf_eq_cr0_iff _).2 ⟨hlen, hcr⟩, rfl⟩
  · rw [heldCommitted_of_not_crPend hc] at hlen
    rw [h, hlen]
    exact ⟨(phaseOf_eq_crN_iff _).2 ⟨hlen ▸ hl, hcr⟩, (min_eq_left (by omega)).symm⟩
  · rw [heldCommitted_of_crPend hc] at hlen
    rw [h, hlen, committed_len_toNat, hl]
    exact ⟨(phaseOf_eq_crN_iff _).2 ⟨hlen ▸ committed_len_ne_zero _ s, hcr⟩, rfl⟩
  · rw [heldCommitted_of_crPend hc] at hlen
    rw [h, hlen, committed_len_toNat]
    exact ⟨(phaseOf_eq_crN_iff _).2 ⟨hlen ▸ committed_len_ne_zero _ s, hcr⟩, rfl⟩

/-- The row of LF, in the phases with a held CR (R73, R75). -/
theorem followsTable_terminator {s : State} (hc : s.crPend = true) :
    FollowsTable Config.lf s := by
  have hlen : (fed Config.lf s).len = 0#8 := by
    by_cases hl : s.len = 0#8
    · rw [fed_empty hc hl, clearLine_len]
    · rw [fed_completes hc hl, clearLine_len]
  have hphase := (phaseOf_eq_empty_iff (fed Config.lf s)).2 ⟨hlen, fed_crPend Config.lf s⟩
  rw [FollowsTable, hphase, hlen]
  obtain ⟨_, hn, _⟩ | ⟨_, hn, _⟩ | ⟨_, _, h⟩ | ⟨_, _, h⟩ := phaseOf_cases s
  · rw [hc] at hn; cases hn
  · rw [hc] at hn; cases hn
  · rw [h]; exact ⟨rfl, rfl⟩
  · rw [h]; exact ⟨rfl, rfl⟩

/-- The rows of the characters that are committed (R74). -/
theorem followsTable_commits {d : Byte} {s : State} (hd : d ≠ Config.cr)
    (hlf : ¬ (d = Config.lf ∧ s.crPend = true)) : FollowsTable d s := by
  have hlen : (fed d s).len = (committed d (heldCommitted s)).len := by
    rw [fed_commits hd hlf]
    rfl
  have hcr : (fed d s).crPend = false := by rw [fed_crPend, decide_eq_false hd]
  have hphase := (phaseOf_eq_text_iff (fed d s)).2 ⟨hlen ▸ committed_len_ne_zero d _, hcr⟩
  rw [FollowsTable, hphase, hlen, committed_len_toNat]
  simp only [phaseAfter, tableLen, Instr.char?, if_neg hd]
  obtain ⟨hl, hc, h⟩ | ⟨hl, hc, h⟩ | ⟨hl, hc, h⟩ | ⟨hl, hc, h⟩ := phaseOf_cases s
  · simp [h, heldCommitted_of_not_crPend hc, hl]
  · simp [h, heldCommitted_of_not_crPend hc]
  · have hdlf : d ≠ Config.lf := fun he => hlf ⟨he, hc⟩
    simp [h, heldCommitted_of_crPend hc, committed_len_toNat, hl, hdlf]
  · have hdlf : d ≠ Config.lf := fun he => hlf ⟨he, hc⟩
    simp only [h, heldCommitted_of_crPend hc, committed_len_toNat, if_neg hdlf]
    exact ⟨trivial, by omega⟩

theorem followsTable (d : Byte) (s : State) : FollowsTable d s := by
  by_cases hd : d = Config.cr
  · exact hd ▸ followsTable_cr s
  · by_cases hlf : d = Config.lf ∧ s.crPend = true
    · obtain ⟨rfl, hc⟩ := hlf
      exact followsTable_terminator hc
    · exact followsTable_commits hd hlf

theorem endsLine_iff (i : Instr) (s : State) :
    endsLine i s = true ↔ i.char? = some Config.lf ∧ s.crPend = true ∧ s.len ≠ 0#8 := by
  simp [endsLine, and_assoc]

/-- A command that is no FEED, in the table: CLR empties the line, NOP and RSV keep phase and LEN. -/
theorem phase_after_control {i : Instr} (hi : i.char? = none) (s : State) :
    phaseOf (after i s) = phaseAfter (phaseOf s) i ∧
      (after i s).len.toNat = min (tableLen (phaseOf s) i s.len.toNat) 255 := by
  have hlt := s.len.isLt
  obtain ⟨d, rfl⟩ | ⟨d, rfl⟩ | ⟨d, rfl⟩ := control_cases hi
  · exact ⟨rfl, (min_eq_left (Nat.le_of_lt_succ hlt)).symm⟩
  · exact ⟨rfl, rfl⟩
  · exact ⟨rfl, (min_eq_left (Nat.le_of_lt_succ hlt)).symm⟩

/-- NEEDS_CONT of a state that holds a line (R16, R77). -/
theorem Tracks.needsCont_iff_phase {s : State} {t : List Byte} (h : Tracks s t) :
    s.needsCont = true ↔ phaseOf s ≠ .empty := by
  have hlen : s.len = 0#8 ↔ t = [] := by
    rw [h.toHolds.len_ofNat (n := 0) (by omega), List.length_eq_zero_iff]
  rw [h.needsCont, ne_eq (phaseOf s), phaseOf_eq_empty_iff, hlen, not_and_or, Bool.not_eq_false]

/-- Settles O22: the table row by row (`followsTable`, `phase_after_control`); a record is emitted by
the command that ends a line. -/
theorem phaseTableHolds : Obligations.PhaseTableHolds := by
  refine ⟨fun i s t h => ?row, fun s ⟨_, _, t, ht, _⟩ => ht.needsCont_iff_phase, rfl⟩
  rw [exec_eq_after] at h
  cases h
  have hrecord :
      (after i s).out.isSome = true ↔ phaseOf s = .crN ∧ i.char? = some Config.lf := by
    rw [after_out, Option.isSome_ite, endsLine_iff, phaseOf_eq_crN_iff, and_comm,
      and_comm (a := s.crPend = true)]
  cases hi : i.char? with
  | none =>
    obtain ⟨hphase, hlen⟩ := phase_after_control hi s
    exact ⟨hphase, hlen, hi ▸ hrecord⟩
  | some d =>
    obtain ⟨hphase, hlen⟩ := followsTable d s
    rw [phaseAfter_of_char hi, tableLen_of_char hi, after_feed hi]
    exact ⟨hphase, hlen, by rw [← after_feed hi, ← hi]; exact hrecord⟩

end Sys2Proof.Machine
end

section
/-! The line a state holds, after every command and every step (rules R15, R20), and two states that
hold the same line (rules R26, R28). -/

namespace Sys2Proof.Machine

/-! ## The line after a command (R61, R72 to R74) -/

theorem lineAfter_of_char {i : Instr} {d : Byte} (h : i.char? = some d) (c : Bool)
    (t : List Byte) : lineAfter i c t = lineAfter (.feed d) c t := by
  simp only [lineAfter, h]
  rfl

theorem lineAfter_feed (d : Byte) (c : Bool) (t : List Byte) :
    lineAfter (.feed d) c t =
      if d = Config.cr then t ++ (if c then [Config.cr] else [])
      else if d = Config.lf ∧ c then []
      else t ++ (if c then [Config.cr] else []) ++ [d] := rfl

/-- R72: the held CR, if any, is committed. -/
theorem lineAfter_cr (s : State) (t : List Byte) :
    lineAfter (.feed Config.cr) s.crPend t = pending s t := by
  rw [lineAfter_feed, if_pos rfl, pending]

/-- R73, R75: the line is completed. -/
theorem lineAfter_terminator {s : State} (hc : s.crPend = true) (t : List Byte) :
    lineAfter (.feed Config.lf) s.crPend t = [] := by
  rw [lineAfter_feed, if_neg lf_ne_cr, if_pos ⟨rfl, hc⟩]

/-- R74: the held CR, if any, and the character are committed. -/
theorem lineAfter_commits {d : Byte} {s : State} (hd : d ≠ Config.cr)
    (hlf : ¬ (d = Config.lf ∧ s.crPend = true)) (t : List Byte) :
    lineAfter (.feed d) s.crPend t = pending s t ++ [d] := by
  rw [lineAfter_feed, if_neg hd, if_neg hlf, pending]

/-! ## Tracking a line (R20) -/

/-- A state whose line registers are clear holds the empty line and says so. -/
theorem tracks_nil {s : State} (hl : s.len = 0#8) (ht : s.talkBad = false)
    (hs : s.starSeen = false) (hi : s.starIdx = 0#8) (hx : s.xacc = 0#8)
    (hn : s.needsCont = false) (hc : s.crPend = false) : Tracks s [] :=
  { holds_nil hl ht hs hi hx with needsCont := by simp [hn, hc] }

theorem tracks_hardReset (s : State) : Tracks (hardReset s) [] :=
  tracks_nil rfl rfl rfl rfl rfl rfl rfl

theorem Tracks.input_set {s : State} {t : List Byte} (h : Tracks s t) (ps : List Pins) :
    Tracks { s with input := ps } t :=
  { h.toHolds.congr rfl rfl rfl rfl rfl rfl rfl with needsCont := h.needsCont }

theorem heldCommitted_wf {s : State} (h : s.lb.wf = true) : (heldCommitted s).lb.wf = true := by
  cases hc : s.crPend with
  | false => rwa [heldCommitted_of_not_crPend hc]
  | true => rw [heldCommitted_of_crPend hc]; exact committed_wf _ h

theorem heldCommitted_within {s : State} (h : s.lb.within s.cfg.lineCap = true) :
    (heldCommitted s).lb.within s.cfg.lineCap = true := by
  cases hc : s.crPend with
  | false => rwa [heldCommitted_of_not_crPend hc]
  | true => rw [heldCommitted_of_crPend hc]; exact committed_within _ h

/-- A FEED keeps LB canonical. -/
theorem fed_wf {s : State} (d : Byte) (h : s.lb.wf = true) : (fed d s).lb.wf = true := by
  obtain ⟨_, hf⟩ | ⟨_, _, _, hf⟩ | ⟨_, _, _, hf⟩ | ⟨_, _, hf⟩ := fed_cases d s <;> rw [hf]
  · exact heldCommitted_wf h
  · exact h
  · exact h
  · exact committed_wf d (s := { heldCommitted s with crPend := false }) (heldCommitted_wf h)

/-- A FEED keeps LB inside the address space (R30). -/
theorem fed_within {s : State} (d : Byte) (h : s.lb.within s.cfg.lineCap = true) :
    (fed d s).lb.within s.cfg.lineCap = true := by
  obtain ⟨_, hf⟩ | ⟨_, _, _, hf⟩ | ⟨_, _, _, hf⟩ | ⟨_, _, hf⟩ := fed_cases d s <;> rw [hf]
  · exact heldCommitted_within h
  · exact h
  · exact h
  · have hheld := heldCommitted_within h
    rw [← heldCommitted_cfg] at hheld
    have := committed_within d (s := { heldCommitted s with crPend := false }) hheld
    rwa [heldCommitted_cfg] at this

theorem after_wf {s : State} (i : Instr) (h : s.lb.wf = true) : (after i s).lb.wf = true := by
  cases i with
  | nop | clr | rsv => exact h
  | _ => exact fed_wf _ h

theorem after_within {s : State} (i : Instr) (h : s.lb.within s.cfg.lineCap = true) :
    (after i s).lb.within s.cfg.lineCap = true := by
  cases i with
  | nop | clr | rsv => exact h
  | _ => exact fed_within _ h

theorem tracks_fed {s : State} {t : List Byte} (d : Byte) (hwf : s.lb.wf = true)
    (h : Holds s t) : Tracks (fed d s) (lineAfter (.feed d) s.crPend t) := by
  have hheld : Holds (heldCommitted s) (pending s t) := holds_heldCommitted hwf h
  obtain ⟨rfl, hf⟩ | ⟨rfl, hc, _, hf⟩ | ⟨rfl, hc, _, hf⟩ | ⟨hd, hlf, hf⟩ := fed_cases d s
  · rw [hf, lineAfter_cr]
    exact { hheld.congr rfl rfl rfl rfl rfl rfl rfl with needsCont := by simp }
  · rw [hf, lineAfter_terminator hc]
    exact tracks_nil rfl rfl rfl rfl rfl rfl rfl
  · rw [hf, lineAfter_terminator hc]
    exact tracks_nil rfl rfl rfl rfl rfl rfl rfl
  · rw [hf, lineAfter_commits hd hlf]
    have hnext := holds_committed (s := { heldCommitted s with crPend := false })
      (heldCommitted_wf hwf) (hheld.congr rfl rfl rfl rfl rfl rfl rfl) d
    exact { hnext.congr rfl rfl rfl rfl rfl rfl rfl with needsCont := by simp }

theorem tracks_after {s : State} {t : List Byte} (i : Instr) (hwf : s.lb.wf = true)
    (h : Tracks s t) : Tracks (after i s) (lineAfter i s.crPend t) := by
  cases hi : i.char? with
  | some d =>
    rw [after_feed hi, lineAfter_of_char hi]
    exact tracks_fed d hwf h.toHolds
  | none =>
    have hkept := h.toHolds
    obtain ⟨d, rfl⟩ | ⟨d, rfl⟩ | ⟨d, rfl⟩ := control_cases hi
    · exact { hkept.congr rfl rfl rfl rfl rfl rfl rfl with needsCont := h.needsCont }
    · exact tracks_nil rfl rfl rfl rfl rfl rfl rfl
    · exact { hkept.congr rfl rfl rfl rfl rfl rfl rfl with needsCont := h.needsCont }

/-- Settles O37: `tracks_after`, the command answering `after`. -/
theorem commandsTrackTheLine : Obligations.CommandsTrackTheLine :=
  fun i s _ hwf h => ⟨after i s, exec_eq_after i s, tracks_after i hwf h⟩

/-! ## No terminator in the line (R15) -/

/-- The text holds no CR LF. -/
def NoCrLf (t : List Byte) : Prop :=
  ∀ i, ¬ (t[i]? = some Config.cr ∧ t[i + 1]? = some Config.lf)

theorem noCrLf_nil : NoCrLf [] := by simp [NoCrLf]

/-- A character adds a terminator only when it is LF and comes after CR. -/
theorem noCrLf_append {t : List Byte} {c : Byte} (h : NoCrLf t)
    (hc : c = Config.lf → t.getLast? ≠ some Config.cr) : NoCrLf (t ++ [c]) := by
  rintro i ⟨h1, h2⟩
  have hlt : i + 1 < (t ++ [c]).length := (List.getElem?_eq_some_iff.1 h2).1
  rw [List.length_append, List.length_singleton] at hlt
  rw [List.getElem?_append_left (by omega)] at h1
  by_cases hi : i + 1 < t.length
  · rw [List.getElem?_append_left hi] at h2
    exact h i ⟨h1, h2⟩
  · have hlast : i = t.length - 1 := by omega
    rw [List.getElem?_append_right (by omega), show i + 1 - t.length = 0 by omega] at h2
    refine hc (Option.some.inj h2) ?_
    rw [List.getLast?_eq_getElem?, ← hlast, h1]

theorem pending_of_crPend {s : State} (h : s.crPend = true) (t : List Byte) :
    pending s t = t ++ [Config.cr] := by rw [pending, if_pos h]

theorem pending_of_not_crPend {s : State} (h : s.crPend = false) (t : List Byte) :
    pending s t = t := by rw [pending, if_neg (by simp [h]), List.append_nil]

theorem noCrLf_pending {s : State} {t : List Byte} (h : NoTerminator s t) :
    NoCrLf (pending s t) := by
  obtain ⟨hno, _⟩ := h
  cases hc : s.crPend with
  | false => rwa [pending_of_not_crPend hc]
  | true =>
    rw [pending_of_crPend hc]
    exact noCrLf_append hno (fun he => absurd he.symm lf_ne_cr)

/-- A character that completes no terminator leaves the pending buffer without one. -/
theorem noCrLf_pending_append {d : Byte} {s : State} {t : List Byte} (h : NoTerminator s t)
    (hlf : ¬ (d = Config.lf ∧ s.crPend = true)) : NoCrLf (pending s t ++ [d]) := by
  refine noCrLf_append (noCrLf_pending h) fun hd => ?_
  have hc : s.crPend = false := Bool.eq_false_iff.2 fun hc => hlf ⟨hd, hc⟩
  rw [pending_of_not_crPend hc]
  exact h.2 hc

theorem noTerminator_nil (s : State) : NoTerminator s [] := ⟨noCrLf_nil, by simp⟩

theorem noTerminator_fed {s : State} {t : List Byte} (d : Byte) (h : NoTerminator s t) :
    NoTerminator (fed d s) (lineAfter (.feed d) s.crPend t) := by
  by_cases hd : d = Config.cr
  · subst hd
    rw [lineAfter_cr]
    exact ⟨noCrLf_pending h, fun hc => by simp [fed_crPend] at hc⟩
  · by_cases hlf : d = Config.lf ∧ s.crPend = true
    · obtain ⟨rfl, hc⟩ := hlf
      rw [lineAfter_terminator hc]
      exact noTerminator_nil _
    · rw [lineAfter_commits hd hlf]
      exact ⟨noCrLf_pending_append h hlf, fun _ => by simp [hd]⟩

theorem noTerminator_after {s : State} {t : List Byte} (i : Instr) (h : NoTerminator s t) :
    NoTerminator (after i s) (lineAfter i s.crPend t) := by
  cases hi : i.char? with
  | some d =>
    rw [after_feed hi, lineAfter_of_char hi]
    exact noTerminator_fed d h
  | none =>
    obtain ⟨d, rfl⟩ | ⟨d, rfl⟩ | ⟨d, rfl⟩ := control_cases hi
    · exact h
    · exact noTerminator_nil _
    · exact h

/-! ## The invariant -/

theorem inv_stepOf {s : State} (p : Pins) (h : Inv s) : Inv (stepOf p s) := by
  obtain ⟨hwf, hin, t, ht, hno⟩ := h
  cases hp : p.rst with
  | true =>
    rw [stepOf_of_reset hp]
    exact ⟨freeLb_wf _ _, freeLb_within _ _, [], tracks_hardReset s, noTerminator_nil _⟩
  | false =>
    rw [stepOf_of_command hp]
    exact ⟨after_wf _ hwf, by rw [after_cfg]; exact after_within _ hin, _,
      tracks_after _ hwf ht, noTerminator_after _ hno⟩

/-- The invariant does not read the pins to come. -/
theorem Inv.input_set {s : State} (h : Inv s) (ps : List Pins) : Inv { s with input := ps } := by
  obtain ⟨hwf, hin, t, ht, hno⟩ := h
  exact ⟨hwf, hin, t, ht.input_set ps, hno⟩

theorem inv_stepped {s : State} (h : Inv s) : Inv (stepped s) :=
  inv_stepOf (pinsNow s) (h.input_set s.input.tail)

/-- Settles O38: a reset step leaves the empty line and free bytes inside LB, and a command keeps each
part of the invariant. -/
theorem stepKeepsTheInvariant : Obligations.StepKeepsTheInvariant := by
  intro s t hs h
  rw [step_eq_stepped] at h
  cases h
  exact inv_stepped hs

/-- Settles O36: every register of the reset state is clear. -/
theorem resetStateKeepsTheInvariant : Obligations.ResetStateKeepsTheInvariant := by
  have htracks : Tracks State.reset [] := tracks_nil rfl rfl rfl rfl rfl rfl rfl
  exact ⟨⟨rfl, rfl, [], htracks, noTerminator_nil _⟩, htracks⟩

/-! ## Two states that hold the same line (R26, R28) -/

/-- Two states of one LINE_CAP, with canonical buffers, that hold the same line and the same held
CR. What is left open is LB above the line, ILLCMD, the reset count, the pins to come and the port. -/
structure SameLine (s u : State) : Prop where
  cfg : u.cfg = s.cfg
  crPend : u.crPend = s.crPend
  wf : s.lb.wf = true ∧ u.lb.wf = true
  line : ∃ t, Tracks s t ∧ Tracks u t

/-- LB agrees on the stored characters of the line. -/
theorem SameLine.read_eq {s u : State} (h : SameLine s u) {a : Nat}
    (ha : a < min s.len.toNat s.cfg.lineCap) : u.lb.read a = s.lb.read a := by
  obtain ⟨t, hs, hu⟩ := h.line
  have hlen := hs.len
  rw [hs.stored a (by omega), hu.stored a (by rw [h.cfg]; omega)]

/-- Every register of the line is a function of the line and the held CR. -/
theorem SameLine.registers {s u : State} (h : SameLine s u) :
    u.len = s.len ∧ u.needsCont = s.needsCont ∧ u.talkBad = s.talkBad ∧
      u.starSeen = s.starSeen ∧ u.starIdx = s.starIdx ∧ u.xacc = s.xacc := by
  obtain ⟨t, hs, hu⟩ := h.line
  refine ⟨BitVec.eq_of_toNat_eq (hu.len.trans hs.len.symm),
    Bool.eq_iff_iff.2 (hu.needsCont.trans ?_), Bool.eq_iff_iff.2 (hu.talkBad.trans hs.talkBad.symm),
    Bool.eq_iff_iff.2 (hu.starSeen.trans hs.starSeen.symm),
    BitVec.eq_of_toNat_eq (hu.starIdx.trans hs.starIdx.symm), hu.xacc.trans hs.xacc.symm⟩
  rw [hs.needsCont, h.crPend]

theorem SameLine.recordOf_eq {s u : State} (h : SameLine s u) : recordOf u = recordOf s := by
  obtain ⟨t, hs, hu⟩ := h.line
  rw [hs.toHolds.recordOf_eq, hu.toHolds.recordOf_eq, h.cfg]

theorem after_out_of_sameLine {s u : State} (i : Instr) (h : SameLine s u) :
    (after i u).out = (after i s).out := by
  have hends : endsLine i u = endsLine i s := by
    rw [endsLine, endsLine, h.crPend, h.registers.1]
  rw [after_out, after_out, hends, h.recordOf_eq]

theorem sameLine_after {s u : State} (i : Instr) (h : SameLine s u) :
    SameLine (after i s) (after i u) := by
  obtain ⟨hcfg, hcr, ⟨hws, hwu⟩, t, hs, hu⟩ := h
  have hu' := tracks_after i hwu hu
  rw [hcr] at hu'
  exact ⟨by rw [after_cfg, after_cfg, hcfg], by rw [after_crPend, after_crPend, hcr],
    ⟨after_wf i hws, after_wf i hwu⟩, _, tracks_after i hws hs, hu'⟩

theorem sameLine_hardReset {s u : State} (h : SameLine s u) :
    SameLine (hardReset s) (hardReset u) :=
  ⟨h.cfg, rfl, ⟨freeLb_wf _ _, freeLb_wf _ _⟩, [], tracks_hardReset s, tracks_hardReset u⟩

/-- One step keeps two states of the same line on the same line, with the same output. -/
theorem sameLine_stepOf {s u : State} (p : Pins) (h : SameLine s u) :
    SameLine (stepOf p s) (stepOf p u) ∧ (stepOf p u).out = (stepOf p s).out := by
  cases hp : p.rst with
  | true =>
    rw [stepOf_of_reset hp, stepOf_of_reset hp]
    exact ⟨sameLine_hardReset h, rfl⟩
  | false =>
    rw [stepOf_of_command hp, stepOf_of_command hp]
    exact ⟨sameLine_after _ h, after_out_of_sameLine _ h⟩

/-- Two states of the same line that differ in nothing but LB. -/
structure StaleTwin (s u : State) : Prop extends SameLine s u where
  illcmd : u.illcmd = s.illcmd
  input : u.input = s.input
  out : u.out = s.out
  freeCount : u.freeCount = s.freeCount

theorem StaleTwin.eq_but_lb {s u : State} (h : StaleTwin s u) : u = { s with lb := u.lb } := by
  obtain ⟨hlen, hneeds, htalk, hseen, hidx, hxacc⟩ := h.registers
  rw [State.mk.injEq]
  exact ⟨h.cfg, rfl, hlen, h.crPend, hneeds, htalk, hseen, hidx, hxacc, h.illcmd, h.input, h.out,
    h.freeCount⟩

/-- A buffer that agrees on the stored characters makes a twin. -/
theorem staleTwin_of_agree {s : State} {m : Memory} (h : Inv s) (hm : m.wf = true)
    (hagree : ∀ a, a < min s.len.toNat s.cfg.lineCap → m.read a = s.lb.read a) :
    StaleTwin s { s with lb := m } := by
  obtain ⟨hwf, _, t, ht, _⟩ := h
  have hstored (i : Nat) (hi : i < min t.length s.cfg.lineCap) : m.read i = t.getD i 0#8 := by
    have hcap := s.cfg.lineCap_le
    rw [hagree i (by rw [ht.len]; omega), ht.stored i hi]
  have hholds : Holds { s with lb := m } t :=
    ⟨ht.len, hstored, ht.talkBad, ht.starSeen, ht.starIdx, ht.xacc⟩
  have hline : SameLine s { s with lb := m } :=
    ⟨rfl, rfl, ⟨hwf, hm⟩, t, ht, { hholds with needsCont := ht.needsCont }⟩
  exact { hline with illcmd := rfl, input := rfl, out := rfl, freeCount := rfl }

/-- One step keeps twins twins: what it does outside LB is the same. -/
theorem staleTwin_stepOf {s u : State} (p : Pins) (h : StaleTwin s u) :
    StaleTwin (stepOf p s) (stepOf p u) := by
  obtain ⟨hline, hout⟩ := sameLine_stepOf p h.toSameLine
  cases hp : p.rst with
  | true =>
    rw [stepOf_of_reset hp, stepOf_of_reset hp] at hline ⊢
    exact { hline with
      illcmd := rfl, input := h.input, out := rfl, freeCount := congrArg (· + 1) h.freeCount }
  | false =>
    rw [stepOf_of_command hp, stepOf_of_command hp] at hline hout ⊢
    exact { hline with
      illcmd := by rw [after_illcmd, after_illcmd, h.illcmd]
      input := by rw [after_input, after_input, h.input]
      out := hout
      freeCount := by rw [after_freeCount, after_freeCount, h.freeCount] }

/-- Settles O44: the two states are twins, and a step keeps twins. -/
theorem stepKeepsStaleBytesStale : Obligations.StepKeepsStaleBytesStale := by
  intro s m hs hm hagree
  have htwin : StaleTwin (stepped s) (stepped { s with lb := m }) :=
    staleTwin_stepOf (pinsNow s) (staleTwin_of_agree (hs.input_set s.input.tail) hm hagree)
  refine ⟨stepped s, (stepped { s with lb := m }).lb, step_eq_stepped s, ?_, inv_stepped hs,
    htwin.wf.2, fun _ => htwin.read_eq⟩
  rw [step_eq_stepped, ← htwin.eq_but_lb]

end Sys2Proof.Machine
end

section
/-! Runs (rule R136) as folds of one step, and what two runs with the same line events have in common
(rules R82, R84). -/

namespace Sys2Proof.Machine

/-! ## A run as a fold (R136) -/

/-- The state reached by the pins `ps`. -/
def reached (ps : List Pins) (s : State) : State := ps.foldl (fun s p => stepOf p s) s

/-- The records emitted on the way, in order. -/
def recordsOf : List Pins → State → List Result
  | [], _ => []
  | p :: ps, s => (stepOf p s).out.toList ++ recordsOf ps (stepOf p s)

@[simp] theorem reached_cons (p : Pins) (ps : List Pins) (s : State) :
    reached (p :: ps) s = reached ps (stepOf p s) := rfl

@[simp] theorem recordsOf_cons (p : Pins) (ps : List Pins) (s : State) :
    recordsOf (p :: ps) s = (stepOf p s).out.toList ++ recordsOf ps (stepOf p s) := rfl

theorem reached_append (ps qs : List Pins) (s : State) :
    reached (ps ++ qs) s = reached qs (reached ps s) := List.foldl_append

theorem recordsOf_append (ps qs : List Pins) (s : State) :
    recordsOf (ps ++ qs) s = recordsOf ps s ++ recordsOf qs (reached ps s) := by
  induction ps generalizing s with
  | nil => rfl
  | cons p ps ih =>
    rw [List.cons_append, recordsOf_cons, recordsOf_cons, reached_cons, ih, List.append_assoc]

/-- The step of the head of the pins to come. -/
theorem stepped_cons (p : Pins) (ps : List Pins) (s : State) :
    stepped { s with input := p :: ps } = { stepOf p s with input := ps } := by
  rw [stepped_eq_stepOf, ← stepOf_input_set]
  rfl

/-- Every sequence of pins has a run, given by the two folds. -/
theorem runPins_eq (ps : List Pins) (s : State) :
    runPins ps s = some (recordsOf ps s, { reached ps s with input := [] }) := by
  rw [runPins]
  induction ps generalizing s with
  | nil => rfl
  | cons p ps ih =>
    rw [List.length_cons, runSteps_succ, stepped_cons, ih]
    rfl

/-- A run does not read the pins that stood in the state before it. -/
theorem recordsOf_input_set (ps qs : List Pins) (s : State) :
    recordsOf ps { s with input := qs } = recordsOf ps s := by
  have h : runPins ps { s with input := qs } = runPins ps s := rfl
  rw [runPins_eq, runPins_eq] at h
  exact congrArg Prod.fst (Option.some.inj h)

theorem reached_input_set (ps qs : List Pins) (s : State) :
    reached ps { s with input := qs } = { reached ps s with input := qs } := by
  induction ps generalizing s with
  | nil => rfl
  | cons p ps ih => rw [reached_cons, stepOf_input_set, ih, reached_cons]

/-- What every step keeps holds of every state reached. -/
theorem reached_of_kept {P : State → Prop} (hstep : ∀ p s, P s → P (stepOf p s)) {s : State}
    (hs : P s) (ps : List Pins) : P (reached ps s) :=
  List.foldlRecOn ps _ hs fun s hs p _ => hstep p s hs

theorem reached_cfg (ps : List Pins) (s : State) : (reached ps s).cfg = s.cfg :=
  reached_of_kept (P := fun u => u.cfg = s.cfg) (fun p u hu => (stepOf_cfg p u).trans hu) rfl ps

/-- A relation that every step keeps, with equal output, holds of the states reached, and the records
are the same. -/
theorem runs_of_kept {R : State → State → Prop}
    (hstep : ∀ p s u, R s u → R (stepOf p s) (stepOf p u) ∧ (stepOf p u).out = (stepOf p s).out)
    {s u : State} (h : R s u) (ps : List Pins) :
    R (reached ps s) (reached ps u) ∧ recordsOf ps u = recordsOf ps s := by
  induction ps generalizing s u with
  | nil => exact ⟨h, rfl⟩
  | cons p ps ih =>
    obtain ⟨hnext, hout⟩ := hstep p s u h
    obtain ⟨hend, hrecords⟩ := ih hnext
    exact ⟨hend, by rw [recordsOf_cons, recordsOf_cons, hout, hrecords]⟩

theorem recordsOf_length_le (ps : List Pins) (s : State) :
    (recordsOf ps s).length ≤ ps.length := by
  induction ps generalizing s with
  | nil => exact Nat.le_refl 0
  | cons p ps ih =>
    have hone : (stepOf p s).out.toList.length ≤ 1 := by
      cases (stepOf p s).out <;> simp
    have hrest := ih (stepOf p s)
    rw [recordsOf_cons, List.length_append, List.length_cons]
    omega

/-- Settles O23: a record is that of a step that ends a line, and each step emits at most one. -/
theorem recordsOnlyAtLineEnds : Obligations.RecordsOnlyAtLineEnds := by
  refine ⟨fun s t h => ?step, fun ps s t rs h => ?run⟩
  case step =>
    rw [step_eq_stepped] at h
    cases h
    rw [stepped_out, Option.isSome_ite, endsLine_iff]
    rfl
  case run =>
    rw [runPins_eq] at h
    cases h
    exact recordsOf_length_le ps s

/-- Settles O39: every step keeps the invariant. -/
theorem runsNeverStop : Obligations.RunsNeverStop := by
  intro ps s hs
  have hinv : Inv (reached ps s) := reached_of_kept (fun p _ => inv_stepOf p) hs ps
  exact ⟨_, _, runPins_eq ps s, hinv.input_set [], reached_cfg ps s, rfl⟩

/-! ## Runs of states that hold the same line (R28, R86) -/

/-- Settles O40: every step keeps twins, and the ports of twins are equal. -/
theorem staleBytesAreNeverObserved : Obligations.StaleBytesAreNeverObserved := by
  intro s m ps hs hm hagree
  obtain ⟨hend, hrecords⟩ := runs_of_kept
    (fun p _ _ h => ⟨staleTwin_stepOf p h, (staleTwin_stepOf p h).out⟩)
    (staleTwin_of_agree hs hm hagree) ps
  refine ⟨_, _, _, runPins_eq ps s, by rw [runPins_eq, hrecords], ?_⟩
  -- Neither port reads LB.
  rw [hend.eq_but_lb]
  exact ⟨rfl, rfl⟩

/-- A CLR or a completed terminator leaves the empty line and no held CR. -/
theorem tracks_nil_after {i : Instr} {s : State}
    (h : opField (encode i) = 2#2 ∨ i.char? = some Config.lf ∧ s.crPend = true) :
    Tracks (after i s) [] ∧ (after i s).crPend = false := by
  obtain h | ⟨hi, hc⟩ := h
  · obtain ⟨d, rfl⟩ := eq_clr_of_opField h
    exact ⟨tracks_nil rfl rfl rfl rfl rfl rfl rfl, rfl⟩
  · rw [after_feed hi]
    by_cases hl : s.len = 0#8
    · rw [fed_empty hc hl]
      exact ⟨tracks_nil rfl rfl rfl rfl rfl rfl rfl, rfl⟩
    · rw [fed_completes hc hl]
      exact ⟨tracks_nil rfl rfl rfl rfl rfl rfl rfl, rfl⟩

/-- Settles O41: both states then hold the empty line, and every step keeps two states of the same
line so. -/
theorem linesAreIndependent : Obligations.LinesAreIndependent := by
  intro i j s1 s2 t1 t2 ps hw1 hw2 hcfg hi hj h1 h2
  rw [exec_eq_after] at h1 h2
  cases h1
  cases h2
  obtain ⟨ht1, hc1⟩ := tracks_nil_after hi
  obtain ⟨ht2, hc2⟩ := tracks_nil_after hj
  have hline : SameLine (after i s1) (after j s2) :=
    ⟨by rw [after_cfg, after_cfg, hcfg], hc2.trans hc1.symm, ⟨after_wf i hw1, after_wf j hw2⟩, [],
      ht1, ht2⟩
  obtain ⟨_, hrecords⟩ := runs_of_kept (fun p _ _ => sameLine_stepOf p) hline ps
  exact ⟨_, _, _, runPins_eq ps _, by rw [runPins_eq, hrecords]⟩

/-! ## Line events (R82) -/

/-- The state with other ILLCMD, pins to come and port: what no command reads. -/
def withSide (b : Bool) (ps : List Pins) (o : Option Result) (s : State) : State :=
  { s with illcmd := b, input := ps, out := o }

/-- What a line event makes of a state; with none, only the port is cleared. -/
def afterEvent (e : Option LineEvent) (s : State) : State :=
  match e with
  | none => emit none s
  | some .clr => emit none { clearLine s with needsCont := false }
  | some (.feed d) => fed d s

theorem lineEvent_of_char {i : Instr} {d : Byte} (h : i.char? = some d) :
    lineEvent? i = some (.feed d) := by
  cases i <;> simp_all [Instr.char?, lineEvent?]

/-- But for ILLCMD a command does what its line event does (R21, R60, R63). -/
theorem after_eq_afterEvent (i : Instr) (s : State) :
    after i s = { afterEvent (lineEvent? i) s with illcmd := (after i s).illcmd } := by
  cases hi : i.char? with
  | some d => rw [lineEvent_of_char hi, after_feed hi]; rfl
  | none => obtain ⟨d, rfl⟩ | ⟨d, rfl⟩ | ⟨d, rfl⟩ := control_cases hi <;> rfl

/-- A line event reads no side field and writes none but the port. -/
theorem afterEvent_withSide (e : Option LineEvent) (b : Bool) (ps : List Pins)
    (o : Option Result) (s : State) :
    afterEvent e (withSide b ps o s) =
      { afterEvent e s with illcmd := b, input := ps } := by
  match e with
  | none => rfl
  | some .clr => rfl
  | some (.feed d) =>
    calc fed d (withSide b ps o s)
        = fed d { ({ s with input := ps } : State) with illcmd := b } := rfl
      _ = { fed d s with illcmd := b, input := ps } := by rw [fed_illcmd_set, fed_input_set]

/-- A step without `rst` does what its line event does, but for ILLCMD. -/
theorem stepOf_of_lineEvent {p : Pins} (h : p.rst = false) (s : State) :
    ∃ b, stepOf p s = { afterEvent p.lineEvent? s with illcmd := b } :=
  ⟨_, by rw [stepOf_of_command h]; exact after_eq_afterEvent _ s⟩

theorem stepped_of_lineEvent {s : State} (h : (pinsNow s).rst = false) :
    ∃ b, stepped s =
      { afterEvent (pinsNow s).lineEvent? s with illcmd := b, input := s.input.tail } := by
  obtain ⟨b, hb⟩ := stepOf_of_lineEvent h s
  exact ⟨b, by rw [stepped_eq_stepOf, takePins, stepOf_input_set, hb]⟩

/-- Settles O45: both steps do what the one line event does, which reads none of the fields that
differ. -/
theorem sameLineEventKeepsStatesEqual : Obligations.SameLineEventKeepsStatesEqual := by
  refine ⟨fun s1 s2 h1 h2 hevent heq => ?same, fun s h hevent => ?none⟩
  case same =>
    obtain ⟨b1, ht1⟩ := stepped_of_lineEvent h1
    obtain ⟨b2, ht2⟩ := stepped_of_lineEvent h2
    have hafter : afterEvent (pinsNow s1).lineEvent? s2 =
        { afterEvent (pinsNow s1).lineEvent? s1 with illcmd := s2.illcmd, input := s2.input } := by
      conv_lhs => rw [heq]
      exact afterEvent_withSide _ s2.illcmd s2.input s2.out s1
    refine ⟨stepped s1, stepped s2, step_eq_stepped s1, step_eq_stepped s2, ?_⟩
    rw [ht1, ht2, ← hevent, hafter]
  case none =>
    obtain ⟨b, ht⟩ := stepped_of_lineEvent h
    refine ⟨stepped s, step_eq_stepped s, ?_⟩
    rw [ht, hevent]
    rfl

/-- The records of a sequence of line events from a state. -/
def recordsOfEvents : List LineEvent → State → List Result
  | [], _ => []
  | e :: es, s => (afterEvent (some e) s).out.toList ++ recordsOfEvents es (afterEvent (some e) s)

theorem recordsOfEvents_withSide (es : List LineEvent) (b : Bool) (ps : List Pins)
    (o : Option Result) (s : State) :
    recordsOfEvents es (withSide b ps o s) = recordsOfEvents es s := by
  induction es generalizing s b ps o with
  | nil => rfl
  | cons e es ih =>
    rw [recordsOfEvents, recordsOfEvents, afterEvent_withSide]
    congr 1
    exact ih b ps (afterEvent (some e) s).out (afterEvent (some e) s)

/-- The records of pins without reset are those of their line events. -/
theorem recordsOf_eq_events {ps : List Pins} (h : ∀ p ∈ ps, p.rst = false) (s : State) :
    recordsOf ps s = recordsOfEvents (ps.filterMap Pins.lineEvent?) s := by
  induction ps generalizing s with
  | nil => rfl
  | cons p ps ih =>
    rw [List.forall_mem_cons] at h
    obtain ⟨hp, hps⟩ := h
    obtain ⟨b, hb⟩ := stepOf_of_lineEvent hp s
    have hrest : recordsOf ps (stepOf p s) =
        recordsOfEvents (ps.filterMap Pins.lineEvent?) (afterEvent p.lineEvent? s) := by
      rw [ih hps, hb]
      exact recordsOfEvents_withSide _ b _ _ (afterEvent p.lineEvent? s)
    rw [recordsOf_cons, hrest, hb]
    cases he : p.lineEvent? with
    | none =>
      rw [List.filterMap_cons_none he]
      exact recordsOfEvents_withSide _ s.illcmd s.input none s
    | some e => rw [List.filterMap_cons_some he, recordsOfEvents]

/-! ## Runs chunk by chunk -/

/-- The records of each chunk, each from the state the one before left. -/
def recordsEach : List (List Pins) → State → List (List Result)
  | [], _ => []
  | ps :: rest, s => recordsOf ps s :: recordsEach rest (reached ps s)

theorem recordsEach_input_set (chunks : List (List Pins)) (qs : List Pins) (s : State) :
    recordsEach chunks { s with input := qs } = recordsEach chunks s := by
  induction chunks generalizing s with
  | nil => rfl
  | cons ps rest ih =>
    rw [recordsEach, recordsEach, recordsOf_input_set, reached_input_set, ih]

theorem recordsEach_flatten (chunks : List (List Pins)) (s : State) :
    (recordsEach chunks s).flatten = recordsOf chunks.flatten s := by
  induction chunks generalizing s with
  | nil => rfl
  | cons ps rest ih =>
    rw [recordsEach, List.flatten_cons, List.flatten_cons, ih, recordsOf_append]

/-- Chunks have a run, to the state that all their pins reach. -/
theorem runEach_eq (chunks : List (List Pins)) (s : State) :
    ∃ qs, runEach chunks s =
      some (recordsEach chunks s, { reached chunks.flatten s with input := qs }) := by
  induction chunks generalizing s with
  | nil => exact ⟨s.input, rfl⟩
  | cons ps rest ih =>
    obtain ⟨qs, hrest⟩ := ih { reached ps s with input := [] }
    refine ⟨qs, ?_⟩
    rw [runEach, runPins_eq]
    simp only [hrest, recordsEach_input_set, reached_input_set, Option.map_some, recordsEach,
      List.flatten_cons, reached_append]

/-- Settles O42: the records are those of the line events, and those of chunks are those of all their
pins. -/
theorem rechunkingChangesNothing : Obligations.RechunkingChangesNothing := by
  refine ⟨fun s ps qs hps hqs hevents => ?events, fun s chunks => ?chunks⟩
  case events =>
    have hrecords : recordsOf ps s = recordsOf qs s := by
      rw [recordsOf_eq_events hps, recordsOf_eq_events hqs, hevents]
    exact ⟨_, _, _, runPins_eq ps s, by rw [runPins_eq, hrecords]⟩
  case chunks =>
    obtain ⟨qs, hrun⟩ := runEach_eq chunks s
    exact ⟨_, _, _, _, hrun, runPins_eq _ s, recordsEach_flatten chunks s⟩

end Sys2Proof.Machine
end

section
/-! The source's reassembler (rule R78) on one character, and the machine beside it (rule R80). -/

namespace Sys2Proof.Machine
open Source

/-! ## Texts without a terminator -/

theorem NoCrLf.tail {c : Byte} {t : List Byte} (h : NoCrLf (c :: t)) : NoCrLf t :=
  fun i hi => h (i + 1) (by simpa using hi)

theorem NoCrLf.head {c d : Byte} {t : List Byte} (h : NoCrLf (c :: d :: t)) :
    ¬ (c = Config.cr ∧ d = Config.lf) :=
  fun hcd => h 0 (by simpa using hcd)

/-- A text that ends in the terminator holds one. -/
theorem NoCrLf.not_suffix {t : List Byte} (h : NoCrLf t) : ¬ Config.terminator <:+ t := by
  rintro ⟨u, rfl⟩
  exact h u.length (by simp)

/-! ## `split` at the terminators (R78) -/

/-- A character that begins no terminator goes to the first fragment. -/
theorem splitLines_cons {c d : Byte} {rest f : List Byte} {fs : List (List Byte)}
    (h : ¬ (c = Config.cr ∧ d = Config.lf)) (hs : splitLines (d :: rest) = f :: fs) :
    splitLines (c :: d :: rest) = (c :: f) :: fs := by
  rw [splitLines, if_neg h, hs]

theorem splitLines_of_noCrLf {t : List Byte} (h : NoCrLf t) : splitLines t = [t] := by
  induction t with
  | nil => rfl
  | cons c t ih =>
    cases t with
    | nil => rfl
    | cons d rest => exact splitLines_cons h.head (ih h.tail)

/-- The first terminator ends the first fragment. -/
theorem splitLines_terminator {t : List Byte} (h : NoCrLf (t ++ [Config.cr])) (ds : List Byte) :
    splitLines (t ++ Config.cr :: Config.lf :: ds) = t :: splitLines ds := by
  induction t with
  | nil => rw [List.nil_append, splitLines, if_pos ⟨rfl, rfl⟩]
  | cons c t ih =>
    have hrest := ih h.tail
    cases t with
    | nil => exact splitLines_cons h.head hrest
    | cons d rest => exact splitLines_cons h.head hrest

theorem splitLines_ne_nil (t : List Byte) : splitLines t ≠ [] := by
  fun_cases splitLines t <;> simp_all

/-! ## Ending in the terminator (R78) -/

theorem endsWithTerminator_iff {t : List Byte} :
    endsWithTerminator t = true ↔ Config.terminator <:+ t := by
  rw [endsWithTerminator, Bool.and_eq_true, decide_eq_true_iff, beq_iff_eq,
    List.suffix_iff_eq_drop, eq_comm (a := Config.terminator)]
  refine and_iff_right_of_imp fun h => ?_
  have hlen := congrArg List.length h
  have htwo : Config.terminator.length = 2 := rfl
  rw [List.length_drop] at hlen
  omega

/-- Two characters decide. -/
theorem endsWithTerminator_append (u : List Byte) {v : List Byte} (h : 2 ≤ v.length) :
    endsWithTerminator (u ++ v) = endsWithTerminator v := by
  rw [Bool.eq_iff_iff, endsWithTerminator_iff, endsWithTerminator_iff]
  refine ⟨fun hs => ?_, fun hs => hs.trans (List.suffix_append u v)⟩
  exact List.suffix_of_suffix_length_le hs (List.suffix_append u v) h

/-- What follows a terminator decides, unless nothing does. -/
theorem endsWithTerminator_after {ds : List Byte} (h : ds ≠ []) (t : List Byte) :
    endsWithTerminator (t ++ Config.cr :: Config.lf :: ds) = endsWithTerminator ds := by
  match ds with
  | [x] =>
    rw [← List.singleton_append, ← List.append_assoc, endsWithTerminator_append _ (by simp)]
    simp [endsWithTerminator]
  | x :: y :: ds =>
    have hsplit : t ++ Config.cr :: Config.lf :: x :: y :: ds =
        (t ++ Config.terminator) ++ x :: y :: ds := by simp
    rw [hsplit, endsWithTerminator_append _ (by simp)]

/-! ## `feed_chunk` (R78) -/

theorem feedChunk_of_terminated {buf chunk : List Byte}
    (h : endsWithTerminator (buf ++ chunk) = true) :
    feedChunk buf chunk = ([], (splitLines (buf ++ chunk)).filter (· ≠ [])) := if_pos h

theorem feedChunk_of_open {buf chunk : List Byte}
    (h : endsWithTerminator (buf ++ chunk) = false) :
    feedChunk buf chunk = ((splitLines (buf ++ chunk)).getLastD [],
      (splitLines (buf ++ chunk)).dropLast.filter (· ≠ [])) := if_neg (by simp [h])

/-- Without a terminator everything stays pending. -/
theorem feedChunk_of_noCrLf {buf chunk : List Byte} (h : NoCrLf (buf ++ chunk)) :
    feedChunk buf chunk = (buf ++ chunk, []) := by
  have hopen : endsWithTerminator (buf ++ chunk) = false :=
    Bool.eq_false_iff.2 (mt endsWithTerminator_iff.1 h.not_suffix)
  rw [feedChunk_of_open hopen, splitLines_of_noCrLf h]
  rfl

/-- LF on a buffer that ends in CR completes a line, and the rest goes on with an empty buffer. -/
theorem feedChunk_terminator {t : List Byte} (h : NoCrLf (t ++ [Config.cr])) (ds : List Byte) :
    feedChunk (t ++ [Config.cr]) (Config.lf :: ds) =
      ((feedChunk [] ds).1, [t].filter (· ≠ []) ++ (feedChunk [] ds).2) := by
  have hcat : (t ++ [Config.cr]) ++ Config.lf :: ds = t ++ Config.cr :: Config.lf :: ds := by simp
  have hfilter (fs : List (List Byte)) :
      (t :: fs).filter (· ≠ []) = [t].filter (· ≠ []) ++ fs.filter (· ≠ []) :=
    List.filter_append [t] fs
  by_cases hds : ds = []
  · subst hds
    have hends : endsWithTerminator (t ++ [Config.cr] ++ [Config.lf]) = true :=
      endsWithTerminator_iff.2 ⟨t, by simp⟩
    rw [feedChunk_of_terminated hends, hcat, splitLines_terminator h,
      hfilter]
    rfl
  · have hafter := endsWithTerminator_after hds t
    rw [← hcat] at hafter
    cases hends : endsWithTerminator ds with
    | true =>
      rw [feedChunk_of_terminated (hafter.trans hends), feedChunk_of_terminated (buf := []) hends,
        hcat, splitLines_terminator h, hfilter]
      rfl
    | false =>
      rw [feedChunk_of_open (hafter.trans hends), feedChunk_of_open (buf := []) hends,
        hcat, splitLines_terminator h, List.nil_append]
      -- The last fragment, which stays pending, is one of what follows the terminator.
      obtain ⟨f, fs, hfs⟩ := List.exists_cons_of_ne_nil (splitLines_ne_nil ds)
      rw [hfs, List.dropLast_cons_cons, hfilter]
      rfl

/-- A text that a new character gives a terminator ended in CR. -/
theorem eq_of_not_noCrLf_append {buf : List Byte} {d : Byte} (h : NoCrLf buf)
    (hd : ¬ NoCrLf (buf ++ [d])) : d = Config.lf ∧ ∃ t, buf = t ++ [Config.cr] := by
  have hlast : ¬ (d = Config.lf → buf.getLast? ≠ some Config.cr) := mt (noCrLf_append h) hd
  rw [Classical.not_imp, not_not, List.getLast?_eq_some_iff] at hlast
  exact hlast

/-- A chunk may be fed one character at a time. -/
theorem feedChunk_cons {buf : List Byte} (h : NoCrLf buf) (d : Byte) (ds : List Byte) :
    feedChunk buf (d :: ds) =
      ((feedChunk (feedChunk buf [d]).1 ds).1,
        (feedChunk buf [d]).2 ++ (feedChunk (feedChunk buf [d]).1 ds).2) := by
  by_cases hd : NoCrLf (buf ++ [d])
  · have hcat : feedChunk buf (d :: ds) = feedChunk (buf ++ [d]) ds := by
      rw [feedChunk, feedChunk, List.append_cons]
    rw [feedChunk_of_noCrLf hd, hcat, List.nil_append]
  · obtain ⟨rfl, t, rfl⟩ := eq_of_not_noCrLf_append h hd
    have hnil : feedChunk [] [] = ([], []) := rfl
    rw [feedChunk_terminator h ds, feedChunk_terminator h [], hnil, List.append_nil]

theorem feedChunk_nil {buf : List Byte} (h : NoCrLf buf) : feedChunk buf [] = (buf, []) := by
  rw [feedChunk_of_noCrLf (by rwa [List.append_nil]), List.append_nil]

/-! ## The machine beside `feed_chunk` (R80) -/

/-- What a record shows of an emitted string: the text cut to LINE_CAP, the length and the cut. -/
def stringFields (cap : Nat) (e : List Byte) : List Byte × Nat × Bool :=
  (e.take cap, min e.length 255, decide (cap < e.length))

/-- Text, `len` and `trunc` of a record. -/
def resultFields (r : Result) : List Byte × Nat × Bool := (r.text, r.len.toNat, r.trunc)

theorem resultFields_lineRecord (cfg : Config) (t : List Byte) :
    resultFields (lineRecord cfg t) = stringFields cfg.lineCap t := by
  rw [resultFields, lineRecord_len_toNat]
  rfl

theorem pending_fed (d : Byte) (s : State) (t : List Byte) :
    pending (fed d s) (lineAfter (.feed d) s.crPend t) =
      if d = Config.lf ∧ s.crPend = true then [] else pending s t ++ [d] := by
  by_cases hd : d = Config.cr
  · subst hd
    rw [if_neg (fun h => absurd h.1.symm lf_ne_cr), lineAfter_cr, pending_of_crPend]
    simp [fed_crPend]
  · have hcr : (fed d s).crPend = false := by rw [fed_crPend, decide_eq_false hd]
    rw [pending_of_not_crPend hcr]
    split_ifs with hlf
    · obtain ⟨rfl, hc⟩ := hlf
      exact lineAfter_terminator hc t
    · exact lineAfter_commits hd hlf t

/-- `feed_chunk` of one character on the pending buffer: the same two cases as FEED. -/
theorem feedChunk_pending {s : State} {t : List Byte} (h : NoTerminator s t) (d : Byte) :
    feedChunk (pending s t) [d] =
      if d = Config.lf ∧ s.crPend = true then ([], [t].filter (· ≠ []))
      else (pending s t ++ [d], []) := by
  split_ifs with hlf
  · obtain ⟨rfl, hc⟩ := hlf
    have hno := noCrLf_pending h
    rw [pending_of_crPend hc] at hno ⊢
    rw [feedChunk_terminator hno, feedChunk_nil noCrLf_nil, List.append_nil]
  · exact feedChunk_of_noCrLf (noCrLf_pending_append h hlf)

/-- The record of a FEED is that of the string `feed_chunk` emits, if any. -/
theorem fed_out_fields {s : State} {t : List Byte} (ht : Tracks s t) (hno : NoTerminator s t)
    (d : Byte) :
    (fed d s).out.toList.map resultFields =
      (feedChunk (pending s t) [d]).2.map (stringFields s.cfg.lineCap) := by
  have hlen : s.len = 0#8 ↔ t = [] := by
    rw [ht.toHolds.len_ofNat (n := 0) (by omega), List.length_eq_zero_iff]
  rw [fed_out, feedChunk_pending hno, ht.toHolds.recordOf_eq]
  by_cases hlf : d = Config.lf ∧ s.crPend = true
  · by_cases hl : t = []
    · simp [hlf, hlen, hl]
    · simp [hlf, hlen, hl, resultFields_lineRecord]
  · rw [if_neg (fun h => hlf ⟨h.1, h.2.1⟩), if_neg hlf]
    rfl

/-- The state holds a line whose pending buffer is the source's buffer `buf`. -/
def Pends (s : State) (buf : List Byte) : Prop :=
  s.lb.wf = true ∧ ∃ line, Tracks s line ∧ NoTerminator s line ∧ pending s line = buf

theorem Pends.noCrLf {s : State} {buf : List Byte} (h : Pends s buf) : NoCrLf buf := by
  obtain ⟨_, line, _, hno, rfl⟩ := h
  exact noCrLf_pending hno

/-- What is pending does not depend on the pins to come. -/
theorem Pends.input_set {s : State} {buf : List Byte} (h : Pends s buf) (ps : List Pins) :
    Pends { s with input := ps } buf := by
  obtain ⟨hwf, line, ht, hno, hbuf⟩ := h
  exact ⟨hwf, line, ht.input_set ps, hno, hbuf⟩

theorem Pends.needsCont_iff {s : State} {buf : List Byte} (h : Pends s buf) :
    s.needsCont = true ↔ buf ≠ [] := by
  obtain ⟨_, line, ht, _, rfl⟩ := h
  rw [ht.needsCont]
  cases hc : s.crPend with
  | false => simp [pending_of_not_crPend hc]
  | true => simp [pending_of_crPend hc]

theorem pends_after_nop {s : State} {buf : List Byte} (h : Pends s buf) (d : Byte) :
    Pends (after (.nop d) s) buf := by
  obtain ⟨hwf, line, ht, hno, hbuf⟩ := h
  exact ⟨hwf, line, tracks_after (.nop d) hwf ht, noTerminator_after (.nop d) hno, hbuf⟩

/-- The state `t` and the records `rs` show what `feed_chunk` makes of the buffer `buf` and the
characters `chunk`, LINE_CAP being `cap` (R78, R80). -/
def Agrees (cap : Nat) (t : State) (rs : List Result) (buf chunk : List Byte) : Prop :=
  Pends t (feedChunk buf chunk).1 ∧
    rs.map resultFields = (feedChunk buf chunk).2.map (stringFields cap)

theorem agrees_fed {s : State} {buf : List Byte} (h : Pends s buf) (d : Byte) :
    Agrees s.cfg.lineCap (fed d s) (fed d s).out.toList buf [d] := by
  obtain ⟨hwf, line, ht, hno, rfl⟩ := h
  refine ⟨⟨fed_wf d hwf, _, tracks_fed d hwf ht.toHolds, noTerminator_fed d hno, ?_⟩,
    fed_out_fields ht hno d⟩
  rw [pending_fed, feedChunk_pending hno]
  split_ifs <;> rfl

theorem agrees_nil {s : State} {buf : List Byte} (cap : Nat) (h : Pends s buf) :
    Agrees cap s [] buf [] := by
  rw [Agrees, feedChunk_nil h.noCrLf]
  exact ⟨h, rfl⟩

/-- The pins of a chunk with idle steps: a FEED, or a NOP (R79). -/
theorem feedsOrIdles_cases {p : Pins} (h : p.feedsOrIdles = true) :
    p.rst = false ∧ ((∃ d, p.char? = some d) ∨ p.char? = none ∧ ∃ d, decode p.word = .nop d) := by
  simp only [Pins.feedsOrIdles, Bool.and_eq_true, Bool.not_eq_true', Bool.or_eq_true,
    beq_iff_eq] at h
  obtain ⟨hr, hop | hop⟩ := h
  · have hnop := decode_of_op_nop hop
    exact ⟨hr, .inr ⟨by rw [Pins.char?, hnop]; rfl, _, hnop⟩⟩
  · exact ⟨hr, .inl ⟨_, decode_char_of_op_feed hop⟩⟩

/-- One FEED or idle step does what `feed_chunk` does with the character fed, if any (R80). -/
theorem agrees_stepOf {s : State} {buf : List Byte} {p : Pins} (h : Pends s buf)
    (hp : p.feedsOrIdles = true) :
    Agrees s.cfg.lineCap (stepOf p s) (stepOf p s).out.toList buf p.char?.toList := by
  obtain ⟨hr, ⟨d, hd⟩ | ⟨hnone, d, hd⟩⟩ := feedsOrIdles_cases hp
  · rw [stepOf_of_command hr, after_feed hd, hd]
    exact agrees_fed h d
  · rw [stepOf_of_command hr, hd, hnone]
    exact agrees_nil _ (pends_after_nop h d)

/-- Settles O46: `agrees_stepOf`, on the state with its pins taken. -/
theorem feedStepKeepsTheSourcesBuffer : Obligations.FeedStepKeepsTheSourcesBuffer := by
  intro s line hwf ht hno hp
  have hpends : Pends (takePins s) (pending s line) :=
    Pends.input_set ⟨hwf, line, ht, hno, rfl⟩ s.input.tail
  obtain ⟨⟨hwf', line', ht', hno', hbuf⟩, hout⟩ := agrees_stepOf hpends hp
  rw [← stepped_eq_stepOf] at hwf' ht' hno' hbuf hout
  exact ⟨stepped s, line', step_eq_stepped s, stepped_cfg s, hwf', ht', hno', hbuf, hout⟩

/-- `feed_chunk` on what one step feeds and what the rest feed (R78). -/
theorem feedChunk_char_append {buf : List Byte} (h : NoCrLf buf) (c : Option Byte)
    (ds : List Byte) :
    feedChunk buf (c.toList ++ ds) =
      ((feedChunk (feedChunk buf c.toList).1 ds).1,
        (feedChunk buf c.toList).2 ++ (feedChunk (feedChunk buf c.toList).1 ds).2) := by
  cases c with
  | none => rw [Option.toList_none, feedChunk_nil h]; rfl
  | some d => exact feedChunk_cons h d ds

theorem charsOf_cons (p : Pins) (ps : List Pins) :
    charsOf (p :: ps) = p.char?.toList ++ charsOf ps := by
  cases h : p.char? <;> simp [charsOf, h]

/-- A chunk with idle steps does what `feed_chunk` does with its characters (R79, R80). -/
theorem agrees_reached {s : State} {buf : List Byte} {ps : List Pins} (h : Pends s buf)
    (hps : ∀ p ∈ ps, p.feedsOrIdles = true) :
    Agrees s.cfg.lineCap (reached ps s) (recordsOf ps s) buf (charsOf ps) := by
  induction ps generalizing s buf with
  | nil => exact agrees_nil _ h
  | cons p ps ih =>
    rw [List.forall_mem_cons] at hps
    obtain ⟨hp, hps⟩ := hps
    obtain ⟨hnext, hout⟩ := agrees_stepOf h hp
    obtain ⟨hend, hrest⟩ := ih hnext hps
    rw [stepOf_cfg] at hrest
    rw [Agrees, charsOf_cons, feedChunk_char_append h.noCrLf, recordsOf_cons, List.map_append,
      List.map_append, hout, hrest]
    exact ⟨hend, rfl⟩

/-- Successive chunks do what successive calls of `feed_chunk` do (R80). -/
theorem agrees_recordsEach {s : State} {buf : List Byte} {chunks : List (List Pins)}
    (h : Pends s buf) (hps : ∀ ps ∈ chunks, ∀ p ∈ ps, p.feedsOrIdles = true) :
    Pends (reached chunks.flatten s) (feedChunks buf (chunks.map charsOf)).1 ∧
      (recordsEach chunks s).map (fun rs => rs.map resultFields) =
        (feedChunks buf (chunks.map charsOf)).2.map
          fun es => es.map (stringFields s.cfg.lineCap) := by
  induction chunks generalizing s buf with
  | nil => exact ⟨h, rfl⟩
  | cons ps rest ih =>
    rw [List.forall_mem_cons] at hps
    obtain ⟨hps, hrest⟩ := hps
    obtain ⟨hnext, hout⟩ := agrees_reached h hps
    obtain ⟨hend, hrecords⟩ := ih hnext hrest
    rw [reached_cfg] at hrecords
    rw [List.flatten_cons, reached_append, recordsEach, List.map_cons]
    exact ⟨hend, List.cons_eq_cons.2 ⟨hout, hrecords⟩⟩

/-- Settles O43: a CLR leaves nothing pending, and the chunks go on as `feed_chunk` from the empty
buffer. -/
theorem reassemblyIsTheSourcesAlgorithm : Obligations.ReassemblyIsTheSourcesAlgorithm := by
  intro d s0 s chunks hwf hclr hps
  rw [exec_eq_after] at hclr
  cases hclr
  have hstart : Pends (after (.clr d) s0) [] :=
    ⟨hwf, [], tracks_nil rfl rfl rfl rfl rfl rfl rfl, noTerminator_nil _, rfl⟩
  obtain ⟨hend, hrecords⟩ := agrees_recordsEach hstart hps
  obtain ⟨qs, hrun⟩ := runEach_eq chunks (after (.clr d) s0)
  have hpends := hend.input_set qs
  have hneeds := hpends.needsCont_iff
  obtain ⟨_, line, ht, _, hbuf⟩ := hpends
  exact ⟨_, _, line, hrun, hrecords, ht, hbuf, hneeds⟩

end Sys2Proof.Machine
end
